-- ==== Sys2Proof/Word.lean ====
section
/-! DEFINITION. The value types of CORE: bytes, 16-bit words, register and key numbers, time
(00_scope.md R5, R7, R8). -/

namespace Sys2Proof

/-- A general register's content, or one byte of memory (R5: `REG_W` = 8). -/
abbrev Byte := BitVec 8

/-- An instruction word, or a value of `PC` or `I` (R5: `PC_W` = `I_W` = 16). -/
abbrev Word := BitVec 16

/-- The 12-bit address field `nnn` of an instruction word (30_encoding.md R71). -/
abbrev Addr12 := BitVec 12

/-- The number of a general register, `V0`..`VF`. -/
abbrev Reg := Fin 16

/-- A key code 0x0..0xF (45_keypad.md R223). -/
abbrev Key := Fin 16

/-- A timestamp in seconds. The spec leaves `Time` open (R6); exact rationals assume no clock
resolution. DESIGN CHOICE, safe (log 6). -/
abbrev Time := Rat

/-- A duration in seconds, exact (46_timers.md R246). -/
abbrev Seconds := Rat

/-- `zext_16(nnn)` (R8): the 12-bit field widened with zero bits. -/
def zext16 (a : Addr12) : Word := a.setWidth 16

end Sys2Proof
end

