-- ==== Sys2Proof/WellFormed.lean ====
section
/-! DEFINITION. Which terms of `Instr` are instructions. Every field has its exact width in its type;
the one condition left is that `0NNN` excludes the two words that are `00E0` and `00EE`
(30_encoding.md R74, R78; the row's "except" in spec/opcode_table.json). -/

namespace Sys2Proof

/-- `0NNN` is not the word 0x00E0, which is `CLS`. -/
def Instr.notCls : Instr → Bool
  | .sys nnn => nnn != 0x0E0#12
  | _ => true

/-- `0NNN` is not the word 0x00EE, which is `RET`. -/
def Instr.notRet : Instr → Bool
  | .sys nnn => nnn != 0x0EE#12
  | _ => true

/-- The check, as a Boolean. -/
def Instr.wf (i : Instr) : Bool := i.notCls && i.notRet

/-- The instruction is one the decoder can produce. -/
abbrev Instr.WellFormed (i : Instr) : Prop := i.wf = true

end Sys2Proof
end

