-- ==== Sys2Proof/Config.lean ====
section
/-! DEFINITION. The fixed parameters of CORE (00_scope.md R5) and its open ones (R6). An open parameter
is an opaque constant with no body: a claim about it holds for every value. -/

namespace Sys2Proof.Config

/-- `MEM_SIZE` (R5). -/
abbrev memSize : Nat := 4096

/-- `START` (R5): where a program is copied and where execution starts. -/
abbrev start : Nat := 0x200

/-- `FONT_BASE` (R5, decision D8). -/
abbrev fontBase : Nat := 0x000

/-- `FONT_GLYPHS` times `FONT_H` (R5): the 80 sprite bytes. -/
abbrev fontSize : Nat := 80

/-- `FONT_H` (R5): bytes per built-in sprite. -/
abbrev fontHeight : Nat := 5

/-- `SPRITE_W` (R5): pixels per sprite row. -/
abbrev spriteWidth : Nat := 8

/-- `TONE_DIV` (R5): an `FX18` tone lasts `Vx` 60ths of a second. -/
abbrev toneDiv : Nat := 60

/-- The parameter `FONT` (R6, decision D9): byte `5*d + r` is row r of digit d. OPEN: a free value,
safe (log 5). -/
opaque font : Nat → Byte

/-- The part of `TICKS` that its law leaves free (46_timers.md R248, decision D15). OPEN: a free value,
safe (log 7). -/
opaque freeTicks : Time → Time → Nat

/-- The number behind the parameter `CAPTURE_TONE` (R6, decision D17). OPEN: a free value, safe (log 8). -/
opaque freeTone : Seconds

/-- The random byte of the n-th cycle whose inputs the host's list does not name (40_cycle.md R103,
decision D36). OPEN: a free value, safe (log 2). -/
opaque freeRnd : Nat → Byte

/-- The n-th reading of the time source that the host's list does not name (40_cycle.md R103, decision
D16). OPEN: a free value, safe (log 2). -/
opaque freeReading : Nat → Time

end Sys2Proof.Config
end

