-- ==== Sys2Proof/Machine/State.lean ====
section
/-! DEFINITION. The state of CORE (10_state.md R20 to R33), the model's own input and output fields, and
the reset state (70_reset_and_hazards.md R301). Plain data throughout. -/

namespace Sys2Proof.Machine

/-- The six execution-time faults (60_exceptions.md R261), each with the information it records. A
fault is taken as a NEXT state whose `status` is `faulted` (R262, log 1), so no meaning answers
`Outcome.fault` with one. DEDUCED, safe: the faulting cycle ends the run of instructions. -/
inductive Fault where
  /-- Code 1. Raised by the decode stage on a word of 30_encoding.md R77. Safe. -/
  | unrecognizedInstruction (w : Word)
  /-- Code 2. Raised by `FX33` when `I + 2` is not in memory (43_index_memory.md R183). Safe. -/
  | bcdOutOfBounds (i : Word)
  /-- Code 3. Raised by the fetch when `PC` or `PC + 1` is not in memory (20_memory.md R53). Safe. -/
  | fetchOutOfBounds (pc : Word)
  /-- Code 4. Raised by `DXYN`, `FX55` and `FX65` when their range leaves memory; w is the word and a
  the lowest address out of range (20_memory.md R56). Safe. -/
  | memoryOutOfBounds (w : Word) (a : Nat)
  /-- Code 5. Raised by `00EE` on an empty call stack (41_control_flow.md R130). Safe. -/
  | stackUnderflow (pc : Word)
  /-- Code 6. Raised by `0NNN` (41_control_flow.md R139). Safe: an engine that ran such a word as a
  no-op would go on where the model faults (decision D4). -/
  | op0Unspecified (w : Word)
  deriving DecidableEq, Repr

/-- Why a step has no meaning. A refused transaction changes nothing (40_cycle.md R106). -/
inductive Refusal where
  /-- An instruction that has no meaning yet. No arm of `exec` answers it. Safe. -/
  | notModelled (mnemonic : String)
  /-- Raised by the cycle with `status` Unloaded (R106, decision D12). Safe. -/
  | cycleBeforeLoad
  /-- Raised by the cycle with `status` Faulted(f) (R106, decision D13). Safe. -/
  | cycleAfterFault (f : Fault)
  deriving DecidableEq, Repr

/-- The capture state `cap` (10_state.md R29). -/
inductive Capture where
  | idle
  | capturing
  | captured (k : Key)
  deriving DecidableEq, Repr

/-- The engine's run state `status` (10_state.md R32). -/
inductive Status where
  | unloaded
  | running
  | faulted (f : Fault)
  deriving DecidableEq, Repr

/-- One `(x, y, value)` record of the renderer's interface (44_display.md R202). -/
structure Pixel where
  x : Fin 64
  y : Fin 32
  value : Bool
  deriving DecidableEq, Repr

/-- The output events (40_cycle.md R104). The record list of `drawPixels` stands for a set (log 14). -/
inductive Event where
  | clearScreen
  | drawPixels (records : List Pixel)
  | playTone (seconds : Seconds)
  deriving DecidableEq, Repr

/-- The result of a transaction besides its events (40_cycle.md R100, R107; 60_exceptions.md R266). -/
inductive Reply where
  /-- The cycle, the key transaction or the load succeeded. -/
  | ok
  /-- The cycle raised f. -/
  | fault (f : Fault)
  /-- `load` was given no bytes. -/
  | absentProgram
  /-- `load` was given more than `MEM_SIZE - START` bytes. -/
  | oversizedProgram
  deriving DecidableEq, Repr

/-- The inputs of one cycle (40_cycle.md R103). -/
structure CycleInputs where
  tUpdate : Time
  tStart : Time
  rnd : Byte
  deriving DecidableEq, Repr

/-- A transaction the host calls (40_cycle.md R100). The Boolean of `keyDown` is `host_choice()` of
45_keypad.md R221 (log 15). -/
inductive Call where
  | cycle (inp : CycleInputs)
  | keyDown (k : Key) (choice : Bool)
  | keyUp (k : Key)
  | load (p : Option (List Byte))
  deriving DecidableEq, Repr

/-- Memory: the bytes that differ from what an unlisted address reads as, addresses rising (log 13). -/
abbrev Memory := List Host.Cell

/-- The display buffer, indexed `D[x][y]` by column and row (10_state.md R27). -/
abbrev Display := Vector (Vector Bool 32) 64

/-- The state record of 10_state.md R20, then the model's own input and output fields (log 2, 3, 4). -/
structure State where
  /-- `V0`..`VF` (R21) -/
  v : Vector Byte 16
  /-- The index register `I` (R23) -/
  i : Word
  /-- `PC` (R24) -/
  pc : Word
  /-- The call stack, most recent entry first (R25, log 16) -/
  stack : List Word
  /-- `mem` (R26) -/
  mem : Memory
  /-- The display buffer `D` (R27) -/
  d : Display
  /-- The keypad flags `K` (R28) -/
  k : Vector Bool 16
  /-- The capture state (R29) -/
  cap : Capture
  /-- `dt_armed` (R30) -/
  dtArmed : Bool
  /-- `dt_count` (R30) -/
  dtCount : Byte
  /-- `dt_stamp` (R30) -/
  dtStamp : Time
  /-- `status` (R32) -/
  status : Status
  /-- MODEL'S OWN: the output list of the latest transaction, oldest event first -/
  events : List Event
  /-- MODEL'S OWN: the result of the latest transaction -/
  reply : Reply
  /-- MODEL'S OWN: the inputs of the current cycle -/
  inp : CycleInputs
  /-- MODEL'S OWN: the host's calls still to come, the next one first -/
  calls : List Call
  /-- MODEL'S OWN: how many cycles have drawn free inputs -/
  draws : Nat
  deriving DecidableEq, Repr

/-- The state right after a successful `load` (70_reset_and_hazards.md R301), with no program byte
listed: what `load` leaves for a program of zero bytes. DESIGN CHOICE, unsafe (log 9, 11, 12). -/
def State.reset : State where
  v := Vector.replicate 16 0#8
  i := 0#16
  pc := 0x200#16
  stack := []
  mem := []
  d := Vector.replicate 64 (Vector.replicate 32 false)
  k := Vector.replicate 16 false
  cap := .idle
  dtArmed := false
  dtCount := 0#8
  dtStamp := 0
  status := .running
  events := []
  reply := .ok
  inp := ⟨0, 0, 0#8⟩
  calls := []
  draws := 0

/-- The machine before its first successful `load` (70_reset_and_hazards.md R303): every cycle is
refused, and the other fields may hold any values. DESIGN CHOICE, safe (log 17). -/
def State.unloaded : State := { State.reset with status := .unloaded }

end Sys2Proof.Machine
end

