-- ==== Sys2Proof/Machine/Ops.lean ====
section
/-! DEFINITION. The operations the meanings share: memory (20_memory.md), registers, the call stack, the
program counter, output events, and raising a fault (60_exceptions.md R262). -/

namespace Sys2Proof.Machine

/-- What a meaning, and a step, answers. -/
abbrev Result := Host.Outcome State Fault Refusal

/-! ### Memory -/

/-- What an address that memory does not list reads as: the contents right after a load outside the
program (20_memory.md R55), FONT at `FONT_BASE` and zeros elsewhere. -/
def Memory.initial (a : Nat) : Byte :=
  if Config.fontBase ≤ a ∧ a < Config.fontBase + Config.fontSize then Config.font (a - Config.fontBase)
  else 0#8

/-- `MemRead(a, 1)` (00_scope.md R9). -/
def Memory.read : Memory → Nat → Byte
  | [], a => Memory.initial a
  | (c, b) :: m, a => if a = c then b else Memory.read m a

/-- The cells of every address but a. -/
def Memory.erase (a : Nat) (m : Memory) : Memory := m.filter fun c => c.1 != a

/-- Byte b for address a, at its place in the rising list. -/
def Memory.insert (a : Nat) (b : Byte) : Memory → Memory
  | [] => [(a, b)]
  | (c, v) :: m => if a < c then (a, b) :: (c, v) :: m else (c, v) :: Memory.insert a b m

/-- `MemWrite(a, 1, b)` (00_scope.md R9); no entry is kept where a reads as b anyway. Every meaning
checks its range first (20_memory.md R56); an address outside memory holds nothing (log 13). -/
def Memory.write (m : Memory) (a : Nat) (b : Byte) : Memory :=
  if a < Config.memSize then
    if b = Memory.initial a then m.erase a else Memory.insert a b (m.erase a)
  else m

/-- The n bytes from address a upwards. -/
def Memory.readBytes (m : Memory) (a n : Nat) : List Byte :=
  (List.range n).map fun r => m.read (a + r)

/-- Byte writes in ascending address order from a (decision D35). -/
def Memory.writeBytes : Memory → Nat → List Byte → Memory
  | m, _, [] => m
  | m, a, b :: bs => Memory.writeBytes (m.write a b) (a + 1) bs

/-- The canonical form from address lo on: rising, in memory, no entry an unlisted address reads as. -/
def Memory.wfFrom : Nat → Memory → Bool
  | _, [] => true
  | lo, (a, b) :: m =>
    decide (lo ≤ a) && decide (a < Config.memSize) && (b != Memory.initial a) && Memory.wfFrom (a + 1) m

/-- The canonical form (log 13). -/
def Memory.wf (m : Memory) : Bool := Memory.wfFrom 0 m

/-- `InBounds(a)`, on the exact integer (00_scope.md R9, decision D28). -/
abbrev inBounds (a : Nat) : Prop := a < Config.memSize

/-! ### Registers, stack, program counter, events -/

/-- `V[r]` (00_scope.md R9). -/
def State.reg (s : State) (r : Reg) : Byte := s.v[r.val]

/-- `V[r] <- b` (00_scope.md R9). -/
def State.setReg (s : State) (r : Reg) (b : Byte) : State := { s with v := s.v.set r.val b }

/-- `I <- a`. -/
def State.setI (s : State) (a : Word) : State := { s with i := a }

/-- The state with another memory. -/
def State.setMem (s : State) (m : Memory) : State := { s with mem := m }

/-- `PC <- target` (00_scope.md R9). -/
def State.jump (s : State) (target : Word) : State := { s with pc := target }

/-- `next` (00_scope.md R9): the following instruction. -/
def State.advance (s : State) : State := s.jump (BitVec.ofNat 16 (s.pc.toNat + 2))

/-- `skip` (00_scope.md R9, 41_control_flow.md R138): past the following instruction. -/
def State.skip (s : State) : State := s.jump (BitVec.ofNat 16 (s.pc.toNat + 4))

/-- `if c then skip else next` (41_control_flow.md R134 to R138). -/
def State.skipIf (s : State) (c : Bool) : State := if c then s.skip else s.advance

/-- `Push(a)` (00_scope.md R9). -/
def State.push (s : State) (a : Word) : State := { s with stack := a :: s.stack }

/-- `Emit(e)` (00_scope.md R9): e is appended to the transaction's output list. -/
def State.emit (s : State) (e : Event) : State := { s with events := s.events ++ [e] }

/-! ### Faults -/

/-- The state a raised fault leaves (60_exceptions.md R262, R264): `status` is Faulted, the cycle's
result is the fault, and nothing else changes; `PC` stays at the instruction. -/
def State.faulted (s : State) (f : Fault) : State := { s with status := .faulted f, reply := .fault f }

/-- `raise F(info)` (00_scope.md R9): the rule stops here. There is no way back but a successful `load`
(60_exceptions.md R265). -/
def raise (f : Fault) (s : State) : Result := .next (s.faulted f)

/-- `raise MemoryOutOfBounds(w, max(I, MEM_SIZE))` for the instruction j with word w (20_memory.md R56). -/
def raiseMemory (j : Instr) (s : State) : Result :=
  raise (.memoryOutOfBounds (encode j) (max s.i.toNat Config.memSize)) s

end Sys2Proof.Machine
end

