-- ==== Sys2Proof/Machine/Operands.lean ====
section
/-! DEFINITION. Operand forms: the values instructions form from their fields and registers
(30_encoding.md R73), each computed as an exact integer and then narrowed (00_scope.md R8). -/

namespace Sys2Proof.Machine

/-- `(a + b) mod 256` (42_register_alu.md R151, R157). -/
def addByte (a b : Byte) : Byte := BitVec.ofNat 8 (a.toNat + b.toNat)

/-- `(a - b) mod 256` (42_register_alu.md R158, R160). -/
def subByte (a b : Byte) : Byte := BitVec.ofInt 8 ((a.toNat : Int) - (b.toNat : Int))

/-- `b >> 1` (42_register_alu.md R159). -/
def shiftRightByte (b : Byte) : Byte := BitVec.ofNat 8 (b.toNat / 2)

/-- `(b << 1) mod 256` (42_register_alu.md R161). -/
def shiftLeftByte (b : Byte) : Byte := BitVec.ofNat 8 (b.toNat * 2)

/-- A 16-bit value plus a byte, mod 65536 (41_control_flow.md R133, 43_index_memory.md R181). -/
def addWord (a : Word) (b : Byte) : Word := BitVec.ofNat 16 (a.toNat + b.toNat)

/-- The value `I` holds after a bulk transfer of `V0..Vx` (43_index_memory.md R184, R185). -/
def indexPast (i : Word) (x : Reg) : Word := BitVec.ofNat 16 (i.toNat + x.val + 1)

/-- The low nibble `b & 0x0F` as a key code or digit (45_keypad.md R224, 43_index_memory.md R182). -/
def lowNibble (b : Byte) : Fin 16 := ⟨b.toNat % 16, Nat.mod_lt _ (by decide)⟩

/-- `FONT_BASE + 5 * digit` (43_index_memory.md R182, decision D8). -/
def glyphAddress (digit : Fin 16) : Word := BitVec.ofNat 16 (Config.fontBase + Config.fontHeight * digit.val)

/-- The decimal digits of a byte, hundreds first (43_index_memory.md R183). -/
def bcdDigits (b : Byte) : List Byte :=
  [BitVec.ofNat 8 (b.toNat / 100), BitVec.ofNat 8 (b.toNat / 10 % 10), BitVec.ofNat 8 (b.toNat % 10)]

/-- `V0..Vx`, V0 first (43_index_memory.md R184). -/
def State.regsUpTo (s : State) (x : Reg) : List Byte := s.v.toList.take (x.val + 1)

/-- Bytes into consecutive registers from number r on (43_index_memory.md R185). -/
def loadRegs : Vector Byte 16 → Nat → List Byte → Vector Byte 16
  | v, _, [] => v
  | v, r, b :: bs => loadRegs (if h : r < 16 then v.set r b else v) (r + 1) bs

/-- `V[r] mod 64`: the sprite's first column (44_display.md R204). -/
def spriteColumn (b : Byte) : Fin 64 := ⟨b.toNat % 64, Nat.mod_lt _ (by decide)⟩

/-- `V[r] mod 32`: the sprite's first row (44_display.md R204). -/
def spriteRow (b : Byte) : Fin 32 := ⟨b.toNat % 32, Nat.mod_lt _ (by decide)⟩

/-- The duration `V[r] / 60` in seconds, exact (46_timers.md R246, decision D31). -/
def toneSeconds (b : Byte) : Seconds := (b.toNat : Rat) / (Config.toneDiv : Rat)

end Sys2Proof.Machine
end

