-- ==== Sys2Proof/Machine/Timers.lean ====
section
/-! DEFINITION. The delay timer, the tick conversion, the sound trigger and the timer instructions
(46_timers.md). -/

namespace Sys2Proof.Machine

/-- `TICKS(t_rec, t_now)` (R248, decision D15): any function of which one law is known, at least 60
ticks once a second has passed. Every such function is `ticks` for some `freeTicks` (log 7). -/
def ticks (tRec tNow : Time) : Nat :=
  if tRec + 1 ≤ tNow then 60 + Config.freeTicks tRec tNow else Config.freeTicks tRec tNow

/-- `start(v, t)` (R240). -/
def State.dtStart (s : State) (v : Byte) (t : Time) : State :=
  { s with dtCount := v, dtStamp := t, dtArmed := true }

/-- The countdown after n ticks at time t (R241): at or below 0 it disarms, else it is kept and the
time recorded (decision D30). -/
def State.dtTick (s : State) (n : Nat) (t : Time) : State :=
  if s.dtCount.toNat ≤ n then { s with dtCount := 0#8, dtArmed := false }
  else { s with dtCount := BitVec.ofNat 8 (s.dtCount.toNat - n), dtStamp := t }

/-- `update(t_now)` (R241): a disarmed timer reads no time and does not change. -/
def State.dtUpdate (s : State) (t : Time) : State :=
  if s.dtArmed then s.dtTick (ticks s.dtStamp t) t else s

/-- `value()` (R242). -/
def State.dtValue (s : State) : Byte := if s.dtArmed then s.dtCount else 0#8

/-- `FX07` (R244). -/
def execLdVxDt (x : Reg) (s : State) : Result := .next (s.setReg x s.dtValue).advance

/-- `FX15` (R245): the time recorded is the cycle input `t_start`. -/
def execLdDtVx (x : Reg) (s : State) : Result := .next (s.dtStart (s.reg x) s.inp.tStart).advance

/-- `FX18` (R246): one request, no state. -/
def execLdStVx (x : Reg) (s : State) : Result := .next (s.emit (.playTone (toneSeconds (s.reg x)))).advance

end Sys2Proof.Machine
end

