-- ==== Sys2Proof/Machine/Cycle.lean ====
section
/-! DEFINITION. The parts of a cycle around the instruction (40_cycle.md R101, R103, R106): the cycle's
inputs, the delay-timer update, the fetch. -/

namespace Sys2Proof.Machine

/-- The opening of every transaction: an empty output list, and the result Ok until something says
otherwise (40_cycle.md R101, R104). -/
def State.opened (s : State) : State := { s with events := [], reply := .ok }

/-- A reading of the time source that does not go back behind t (decision D16). -/
def notBefore (t reading : Time) : Time := if t ≤ reading then reading else t

/-- The n-th set of free cycle inputs, the last recorded start being t: time does not go back, the
rest is any value (40_cycle.md R103, log 2). -/
def freeInputs (n : Nat) (t : Time) : CycleInputs where
  tUpdate := notBefore t (Config.freeReading (2 * n))
  tStart := notBefore (notBefore t (Config.freeReading (2 * n))) (Config.freeReading (2 * n + 1))
  rnd := Config.freeRnd n

/-- The cycle takes its inputs: those of the host's call where the host's list names them, else free
ones (log 2, 3). -/
def State.takeInputs (s : State) : State :=
  match s.calls with
  | .cycle inp :: rest => { s with inp := inp, calls := rest }
  | _ => { s with inp := freeInputs s.draws s.inp.tStart, draws := s.draws + 1 }

/-- Everything a cycle does before its fetch (40_cycle.md R101, 46_timers.md R243). -/
def State.startCycle (s : State) : State :=
  (s.takeInputs.opened).dtUpdate s.takeInputs.inp.tUpdate

/-- The word of the fetch (20_memory.md R53), big-endian; none where `PC` or `PC + 1`, exact, is not
in memory. -/
def State.fetch (s : State) : Option Word :=
  if inBounds s.pc.toNat ∧ inBounds (s.pc.toNat + 1) then
    some (wordOfBytes (s.mem.read s.pc.toNat) (s.mem.read (s.pc.toNat + 1)))
  else none

/-- What the decode stage raises for a word that is no instruction (30_encoding.md R74, R77). -/
def raiseReject (w : Word) (r : DecodeReject) (s : State) : Result :=
  match r with
  | .truncated => raise (.unrecognizedInstruction w) s
  | .unrecognized w' => raise (.unrecognizedInstruction w') s

/-- Whether a pending call is a cycle. -/
def Call.isCycle : Call → Bool
  | .cycle _ => true
  | _ => false

/-- The state with a word stored where the next cycle fetches: at `PC`, or at `START` where `PC`
cannot be fetched from; the machine runs, and no other call comes before the cycle (log 19). -/
def State.withWordAtPc (s : State) (w : Word) : State :=
  let at' := if inBounds (s.pc.toNat + 1) then s.pc.toNat else Config.start
  { s with
    mem := s.mem.writeBytes at' [highByte w, lowByte w]
    pc := BitVec.ofNat 16 at'
    status := .running
    calls := s.calls.dropWhile fun c => !c.isCycle }

end Sys2Proof.Machine
end

