-- ==== Sys2Proof/Machine/Flags.lean ====
section
/-! DEFINITION. The flag computations and the flag-last law (10_state.md R22, 42_register_alu.md R152). -/

namespace Sys2Proof.Machine

/-- The number of `VF`. -/
def regF : Reg := 15

/-- A condition as the byte 1 or 0 (00_scope.md R8, `bool`). -/
def flagByte (c : Bool) : Byte := if c then 1#8 else 0#8

/-- Carry out of `a + b` (42_register_alu.md R157). -/
def carry (a b : Byte) : Bool := decide (a.toNat + b.toNat > 255)

/-- Not-borrow of `a - b` (42_register_alu.md R158, R160): minuend at least subtrahend. -/
def notBorrow (a b : Byte) : Bool := decide (a.toNat ≥ b.toNat)

/-- The bit a right shift moves out: bit 0 (42_register_alu.md R159). -/
def shiftedOutRight (b : Byte) : Bool := b.getLsbD 0

/-- The bit a left shift moves out: bit 7 (42_register_alu.md R161). -/
def shiftedOutLeft (b : Byte) : Bool := b.getLsbD 7

/-- `VF <- bool(c)`. -/
def State.setFlag (s : State) (c : Bool) : State := s.setReg regF (flagByte c)

/-- Steps 3 and 4 of R152: the result to `V[x]`, then the flag to `VF` as the very last write. -/
def State.writeFlagLast (s : State) (x : Reg) (r : Byte) (c : Bool) : State := (s.setReg x r).setFlag c

end Sys2Proof.Machine
end

