-- ==== Sys2Proof/Machine/Alu.lean ====
section
/-! DEFINITION. The register and ALU instructions (42_register_alu.md). None of them can fault. -/

namespace Sys2Proof.Machine

/-- `6XNN` (R150). -/
def execLdImm (x : Reg) (nn : Byte) (s : State) : Result := .next (s.setReg x nn).advance

/-- `7XNN` (R151): no carry is written. -/
def execAddImm (x : Reg) (nn : Byte) (s : State) : Result :=
  .next (s.setReg x (addByte (s.reg x) nn)).advance

/-- `8XY0` (R153). -/
def execLdReg (x y : Reg) (s : State) : Result := .next (s.setReg x (s.reg y)).advance

/-- `8XY1` (R154): `VF` is unchanged unless x = F (decision D33). -/
def execOrReg (x y : Reg) (s : State) : Result := .next (s.setReg x (s.reg x ||| s.reg y)).advance

/-- `8XY2` (R155). -/
def execAndReg (x y : Reg) (s : State) : Result := .next (s.setReg x (s.reg x &&& s.reg y)).advance

/-- `8XY3` (R156). -/
def execXorReg (x y : Reg) (s : State) : Result := .next (s.setReg x (s.reg x ^^^ s.reg y)).advance

/-- `8XY4` (R157). -/
def execAddReg (x y : Reg) (s : State) : Result :=
  .next (s.writeFlagLast x (addByte (s.reg x) (s.reg y)) (carry (s.reg x) (s.reg y))).advance

/-- `8XY5` (R158): the minuend is `Vx`. -/
def execSub (x y : Reg) (s : State) : Result :=
  .next (s.writeFlagLast x (subByte (s.reg x) (s.reg y)) (notBorrow (s.reg x) (s.reg y))).advance

/-- `8XY6` (R159): the source is `Vy`. -/
def execShr (x y : Reg) (s : State) : Result :=
  .next (s.writeFlagLast x (shiftRightByte (s.reg y)) (shiftedOutRight (s.reg y))).advance

/-- `8XY7` (R160): the minuend is `Vy`. -/
def execSubn (x y : Reg) (s : State) : Result :=
  .next (s.writeFlagLast x (subByte (s.reg y) (s.reg x)) (notBorrow (s.reg y) (s.reg x))).advance

/-- `8XYE` (R161): the source is `Vy`. -/
def execShl (x y : Reg) (s : State) : Result :=
  .next (s.writeFlagLast x (shiftLeftByte (s.reg y)) (shiftedOutLeft (s.reg y))).advance

/-- `CXNN` (R163): the cycle input `rnd` under the mask. -/
def execRnd (x : Reg) (nn : Byte) (s : State) : Result := .next (s.setReg x (s.inp.rnd &&& nn)).advance

end Sys2Proof.Machine
end

