-- ==== Sys2Proof/Machine/ControlFlow.lean ====
section
/-! DEFINITION. The control flow instructions (41_control_flow.md). -/

namespace Sys2Proof.Machine

/-- `00EE` (R130): `PC` from the call stack; an empty stack raises StackUnderflow. -/
def execRet (s : State) : Result :=
  match s.stack with
  | [] => raise (.stackUnderflow s.pc) s
  | t :: rest => .next (State.jump { s with stack := rest } t)

/-- `0NNN` (R139, decision D4): always raises Op0Unspecified(w), w being the word itself. -/
def execSys (nnn : Addr12) (s : State) : Result := raise (.op0Unspecified (encode (.sys nnn))) s

/-- `1NNN` (R131). -/
def execJp (nnn : Addr12) (s : State) : Result := .next (s.jump (zext16 nnn))

/-- `2NNN` (R132): the address after the call is pushed; the push never fails. -/
def execCall (nnn : Addr12) (s : State) : Result :=
  .next ((s.push (BitVec.ofNat 16 (s.pc.toNat + 2))).jump (zext16 nnn))

/-- `BNNN` (R133): always V0, whatever the second nibble holds. -/
def execJpV0 (nnn : Addr12) (s : State) : Result := .next (s.jump (addWord (zext16 nnn) (s.reg 0)))

/-- `3XNN` (R134). -/
def execSeImm (x : Reg) (nn : Byte) (s : State) : Result := .next (s.skipIf (s.reg x == nn))

/-- `4XNN` (R135). -/
def execSneImm (x : Reg) (nn : Byte) (s : State) : Result := .next (s.skipIf (s.reg x != nn))

/-- `5XY0` (R136). -/
def execSeReg (x y : Reg) (s : State) : Result := .next (s.skipIf (s.reg x == s.reg y))

/-- `9XY0` (R137). -/
def execSneReg (x y : Reg) (s : State) : Result := .next (s.skipIf (s.reg x != s.reg y))

end Sys2Proof.Machine
end

