-- ==== Sys2Proof/Machine/IndexMemory.lean ====
section
/-! DEFINITION. The index register and memory instructions (43_index_memory.md). Each bounds check is
on the exact address and comes before the first access. -/

namespace Sys2Proof.Machine

/-- `ANNN` (R180). -/
def execLdI (nnn : Addr12) (s : State) : Result := .next (s.setI (zext16 nnn)).advance

/-- `FX1E` (R181): `VF` is unchanged (decision D34). -/
def execAddI (x : Reg) (s : State) : Result := .next (s.setI (addWord s.i (s.reg x))).advance

/-- `FX29` (R182). -/
def execLdF (x : Reg) (s : State) : Result := .next (s.setI (glyphAddress (lowNibble (s.reg x)))).advance

/-- `FX33` (R183): three digits at `I`, `I+1`, `I+2`; `I` is unchanged. -/
def execLdB (x : Reg) (s : State) : Result :=
  if inBounds (s.i.toNat + 2) then
    .next (s.setMem (s.mem.writeBytes s.i.toNat (bcdDigits (s.reg x)))).advance
  else raise (.bcdOutOfBounds s.i) s

/-- `FX55` (R184). -/
def execStRegs (x : Reg) (s : State) : Result :=
  if inBounds (s.i.toNat + x.val) then
    .next ((s.setMem (s.mem.writeBytes s.i.toNat (s.regsUpTo x))).setI (indexPast s.i x)).advance
  else raiseMemory (.stRegs x) s

/-- `FX65` (R185). -/
def execLdRegs (x : Reg) (s : State) : Result :=
  if inBounds (s.i.toNat + x.val) then
    .next (State.setI { s with v := loadRegs s.v 0 (s.mem.readBytes s.i.toNat (x.val + 1)) }
      (indexPast s.i x)).advance
  else raiseMemory (.ldRegs x) s

end Sys2Proof.Machine
end

