-- ==== Sys2Proof/Machine/Keypad.lean ====
section
/-! DEFINITION. The keypad, its capture machine, the key transactions and the key instructions
(45_keypad.md). -/

namespace Sys2Proof.Machine

/-- `K[k]`: key k is held. -/
def State.held (s : State) (k : Key) : Bool := s.k[k.val]

/-- `K[k] <- b`. -/
def State.setKey (s : State) (k : Key) (b : Bool) : State := { s with k := s.k.set k.val b }

/-- `cap <- c`. -/
def State.setCap (s : State) (c : Capture) : State := { s with cap := c }

/-- The parameter `CAPTURE_TONE` (00_scope.md R6): a non-negative duration, otherwise free (log 8). -/
def captureTone : Seconds := if 0 ≤ Config.freeTone then Config.freeTone else -Config.freeTone

/-- The effect of `key_down(k)` (R221); choice is `host_choice()` (decision D18). -/
def keyDown (k : Key) (choice : Bool) (s : State) : State :=
  if s.cap = .capturing ∧ (s.held k = false ∨ choice = true) then
    ((s.setKey k true).setCap (.captured k)).emit (.playTone captureTone)
  else s.setKey k true

/-- The effect of `key_up(k)` (R222). -/
def keyUp (k : Key) (s : State) : State := s.setKey k false

/-- `EX9E` (R224). -/
def execSkp (x : Reg) (s : State) : Result := .next (s.skipIf (s.held (lowNibble (s.reg x))))

/-- `EXA1` (R225). -/
def execSknp (x : Reg) (s : State) : Result := .next (s.skipIf (!s.held (lowNibble (s.reg x))))

/-- `FX0A` (R226): arm, wait for a press, wait for its release, then deliver the key. -/
def execLdVxK (x : Reg) (s : State) : Result :=
  match s.cap with
  | .idle => .next (s.setCap .capturing)
  | .capturing => .next s
  | .captured k =>
    if s.held k then .next s
    else .next ((s.setReg x (BitVec.ofNat 8 k.val)).setCap .idle).advance

end Sys2Proof.Machine
end

