-- ==== Sys2Proof/Machine/Screen.lean ====
section
/-! DEFINITION. The display buffer's primitives and the display instructions (44_display.md). -/

namespace Sys2Proof.Machine

/-- `D[x][y]` (00_scope.md R9). -/
def Display.get (d : Display) (x : Fin 64) (y : Fin 32) : Bool := d[x.val][y.val]

/-- `D[x][y] <- b`. -/
def Display.put (d : Display) (x : Fin 64) (y : Fin 32) (b : Bool) : Display :=
  d.set x.val (d[x.val].set y.val b)

/-- `clear()` (R201): every pixel unset. -/
def Display.blank : Display := Vector.replicate 64 (Vector.replicate 32 false)

/-- The bits of a sprite row, most significant first (R200). -/
def spriteBits (octet : Byte) : List Bool := [7, 6, 5, 4, 3, 2, 1, 0].map octet.getLsbD

/-- The loop of `draw` (R200) from column cx on: each bit within the columns is XORed into row y, and
a pixel that goes from set to unset is a collision; columns past 63 are dropped. -/
def drawBits (y : Fin 32) : List Bool → Nat → Display → Display × Bool
  | [], _, d => (d, false)
  | bit :: bits, cx, d =>
    if h : cx < 64 then
      let old := d.get ⟨cx, h⟩ y
      let r := drawBits y bits (cx + 1) (d.put ⟨cx, h⟩ y (old ^^ bit))
      (r.1, (old && bit) || r.2)
    else drawBits y bits (cx + 1) d

/-- `draw(x0, y, octet)` (R200). -/
def drawRow (d : Display) (x0 : Fin 64) (y : Fin 32) (octet : Byte) : Display × Bool :=
  drawBits y (spriteBits octet) x0.val d

/-- The row loop of `DXYN` (R204) from row on: rows past 31 are clipped, collisions accumulate. -/
def drawSprite (x0 : Fin 64) : List Byte → Nat → Display → Display × Bool
  | [], _, d => (d, false)
  | octet :: octets, row, d =>
    if h : row < 32 then
      let r := drawRow d x0 ⟨row, h⟩ octet
      let r' := drawSprite x0 octets (row + 1) r.1
      (r'.1, r.2 || r'.2)
    else drawSprite x0 octets (row + 1) d

/-- `read(x, y, width, height)` (R202): the records of the rectangle clipped to the buffer, as a set
(decision D20); the list's order means nothing (log 14). -/
def Display.region (d : Display) (x y width height : Nat) : List Pixel :=
  ((List.finRange 32).filter fun r => decide (y ≤ r.val ∧ r.val < y + height)).flatMap fun r =>
    ((List.finRange 64).filter fun c => decide (x ≤ c.val ∧ c.val < x + width)).map fun c =>
      ⟨c, r, d.get c r⟩

/-- `00E0` (R203). -/
def execCls (s : State) : Result := .next (State.emit { s with d := Display.blank } .clearScreen).advance

/-- `DXYN` (R204), its range in memory: draw, then `VF`, then the renderer's records (R205). -/
def State.draw (s : State) (x y : Reg) (n : Nat) : State :=
  let x0 := spriteColumn (s.reg x)
  let y0 := spriteRow (s.reg y)
  let drawn := drawSprite x0 (s.mem.readBytes s.i.toNat n) y0.val s.d
  (State.setFlag { s with d := drawn.1 } drawn.2).emit
    (.drawPixels (Display.region drawn.1 x0.val y0.val Config.spriteWidth n))

/-- `DXYN` (R204): the sprite bytes `I .. I+n-1` must all be in memory (decisions D2, D19). -/
def execDrw (x y : Reg) (n : Fin 16) (s : State) : Result :=
  if 0 < n.val ∧ ¬ inBounds (s.i.toNat + n.val - 1) then raiseMemory (.drw x y n) s
  else .next (s.draw x y n.val).advance

end Sys2Proof.Machine
end

