-- ==== Sys2Proof/Machine/Loading.lean ====
section
/-! DEFINITION. The transaction `load`, which is CORE's reset (70_reset_and_hazards.md R300 to R302). -/

namespace Sys2Proof.Machine

/-- The longest program that loads: `MEM_SIZE - START` bytes (R300). -/
def maxProgram : Nat := Config.memSize - Config.start

/-- Memory after a successful `load(p)` (20_memory.md R55): FONT and zeros, with p at `START`. -/
def loadedMemory (p : List Byte) : Memory := Memory.writeBytes [] Config.start p

/-- `reset_and_copy(p)` (R301): every field of the state record. The model's own fields stay. -/
def resetAndCopy (p : List Byte) (s : State) : State :=
  { s with
    v := Vector.replicate 16 0#8
    i := 0#16
    pc := BitVec.ofNat 16 Config.start
    stack := []
    mem := loadedMemory p
    d := Display.blank
    k := Vector.replicate 16 false
    cap := .idle
    dtArmed := false
    dtCount := 0#8
    dtStamp := 0
    status := .running }

/-- `load(p)` (R300, R302): the two checks come first, and a failed load changes nothing but the
result it returns. -/
def load (p : Option (List Byte)) (s : State) : State :=
  match p with
  | none => { s with reply := .absentProgram }
  | some bytes =>
    if bytes.length = 0 then { s with reply := .absentProgram }
    else if bytes.length > maxProgram then { s with reply := .oversizedProgram }
    else { resetAndCopy bytes s with reply := .ok }

end Sys2Proof.Machine
end

