-- ==== Sys2Proof/Machine/Step.lean ====
section
/-! DEFINITION. One step of the machine: one whole transaction (40_cycle.md R100, R101, R105, R106). -/

namespace Sys2Proof.Machine

/-- Fetch, decode and execute (40_cycle.md R101, steps 2 to 5), in the order of 60_exceptions.md R263. -/
def fetchExecute (s : State) : Result :=
  match s.fetch with
  | none => raise (.fetchOutOfBounds s.pc) s
  | some w =>
    match decodeWord w with
    | .error r => raiseReject w r s
    | .ok j => exec j s

/-- `advance_one_cycle` (40_cycle.md R101, R106). -/
def cycle (s : State) : Result :=
  match s.status with
  | .unloaded => .refused .cycleBeforeLoad
  | .faulted f => .refused (.cycleAfterFault f)
  | .running => fetchExecute s.startCycle

/-- One transaction: the host's next call where it has decided on one, else a cycle (log 3). -/
def step (s : State) : Host.Outcome State Fault Refusal :=
  match s.calls with
  | .keyDown k choice :: rest => .next (keyDown k choice { s with calls := rest }.opened)
  | .keyUp k :: rest => .next (keyUp k { s with calls := rest }.opened)
  | .load p :: rest => .next (load p { s with calls := rest }.opened)
  | _ => cycle s

/-- The state whose next step fetches and runs the table row's word (log 19). -/
def State.withFetchWord (s : State) (nbits w : Nat) : State := s.withWordAtPc (tableWord nbits w)

end Sys2Proof.Machine
end

