-- ==== Sys2Proof/Machine/Run.lean ====
section
/-! DEFINITION. The end of a run and what is observed there (40_cycle.md R110, decision D37): a run's
points, the two ends, and the run itself over a finite sequence of transactions. -/

namespace Sys2Proof.Machine

/-- Where a run ends (R110): at a cycle count, or at the first cycle boundary where `PC` is an address.
That an end is reached does not say that the program has stopped (R109, R110). -/
inductive RunEnd where
  | cycles (n : Nat)
  | pcAt (a : Word)
  deriving DecidableEq, Repr

/-- A point between two transactions of a run. R110's observation is its state and its events. -/
structure RunPoint where
  /-- The state at this point -/
  state : State
  /-- The event lists of the run's transactions so far, concatenated -/
  events : List Event
  /-- How many of those transactions were cycles -/
  cycles : Nat
  deriving DecidableEq, Repr

/-- What a run comes to. Only `ended` is a run in the sense of R110. -/
inductive RunResult where
  /-- The end was reached, first at this point. -/
  | ended (p : RunPoint)
  /-- The transactions are used up and the end was not reached. -/
  | unended (p : RunPoint)
  /-- The transaction at this point was refused: the run is refused, never finished (R106). -/
  | refused (r : Refusal) (p : RunPoint)
  /-- A step stopped at this point. No step does: a fault is a next state (log 1). -/
  | stopped (f : Fault) (p : RunPoint)
  /-- The load failed: no run starts. -/
  | notLoaded (r : Reply)
  deriving DecidableEq, Repr

/-- Whether the next step is a cycle: the host has no other call pending (log 3). -/
def State.takesCycle (s : State) : Bool :=
  match s.calls with
  | [] => true
  | c :: _ => c.isCycle

/-- Whether a run ends at a point (R110). -/
def RunEnd.reached (e : RunEnd) (p : RunPoint) : Bool :=
  match e with
  | .cycles n => p.cycles == n
  | .pcAt a => p.state.pc == a

/-- The point after a transaction that leaves state t: its events are appended, a cycle is counted. -/
def RunPoint.after (p : RunPoint) (t : State) : RunPoint where
  state := t
  events := p.events ++ t.events
  cycles := if p.state.takesCycle then p.cycles + 1 else p.cycles

/-- The run from a point over at most k transactions (R110): it ends at the first point that reaches its
end, this one included (log 25). -/
def runUntil (e : RunEnd) : Nat → RunPoint → RunResult
  | 0, p => if e.reached p then .ended p else .unended p
  | k + 1, p =>
    if e.reached p then .ended p
    else match step p.state with
      | .next t => runUntil e k (p.after t)
      | .refused r => .refused r p
      | .fault f => .stopped f p

/-- The point a run starts from: no event, no cycle. -/
def RunPoint.start (s : State) : RunPoint := ⟨s, [], 0⟩

/-- The run of a program: a successful `load`, then at most k transactions, the host's calls first
(R110). -/
def runProgram (bytes : List Byte) (calls : List Call) (e : RunEnd) (k : Nat) : RunResult :=
  let s := load (some bytes) State.unloaded
  match s.reply with
  | .ok => runUntil e k (RunPoint.start { s with calls := calls })
  | r => .notLoaded r

end Sys2Proof.Machine
end

