-- ==== Sys2Proof/Safety.lean ====
section
/-! DEFINITION. The terms claims are stated in: which runs are safe, the machine's invariants, what a
transaction may leave unchanged, and the pixel a sprite's bit falls on. -/

namespace Sys2Proof.Machine

/-! ### Safe runs -/

/-- No fault has been raised and a program is loaded: the next cycle is not refused
(10_state.md R32, 40_cycle.md R106). A run is safe while its states are so. -/
def State.isRunning (s : State) : Prop := s.status = .running

/-- The next step is a cycle: the host has no other call pending (40_cycle.md R105). -/
def State.cycleNext (s : State) : Prop :=
  match s.calls with
  | [] => True
  | c :: _ => c.isCycle = true

/-- The cycle inputs keep the host's duty (40_cycle.md R103, decision D16), t being the last recorded
start: time does not go back. -/
def CycleInputs.dutiful (t : Time) (c : CycleInputs) : Prop := t ≤ c.tUpdate ∧ c.tUpdate ≤ c.tStart

/-! ### Runs, by their steps (40_cycle.md R110) -/

/-- The state after i transactions from s, where none of them was refused. -/
def stateAfter (s : State) (i : Nat) : Option State :=
  match core.run i s with
  | .next t => some t
  | .fault _ => none
  | .refused _ => none

/-- The events of transaction number i (from 0) of the run from s. -/
def transactionEvents (s : State) (i : Nat) : List Event :=
  match stateAfter s (i + 1) with
  | some t => t.events
  | none => []

/-- Whether transaction number i (from 0) of the run from s is a cycle. -/
def transactionIsCycle (s : State) (i : Nat) : Bool :=
  match stateAfter s i with
  | some t => t.takesCycle
  | none => false

/-- The run from p is at q after j transactions: q holds the state they leave, their event lists
concatenated after those of p, and the number of cycles among them. -/
def RunPoint.HasRun (p : RunPoint) (j : Nat) (q : RunPoint) : Prop :=
  stateAfter p.state j = some q.state ∧
  q.events = p.events ++ (List.range j).flatMap (transactionEvents p.state) ∧
  q.cycles = p.cycles + (List.range j).countP (transactionIsCycle p.state)

/-- The end e is reached at none of the points of the run from p after fewer than j transactions. -/
def RunPoint.NotEndedBefore (p : RunPoint) (e : RunEnd) (j : Nat) : Prop :=
  ∀ i, i < j → ∀ q, p.HasRun i q → e.reached q = false

/-! ### A key wait that goes on -/

/-- An `FX0A` at `PC` has no key to deliver: no key is captured yet, or the captured key is still held
(45_keypad.md R226, R227). -/
def State.WaitsForKey (s : State) : Prop :=
  s.cap = .capturing ∨ ∃ k, s.cap = .captured k ∧ s.held k = true

/-- A call that ends no key wait (45_keypad.md R227): no press during a capture, no release of the captured
key, and no load. -/
def Call.KeepsWaiting (cap : Capture) : Call → Prop
  | .cycle _ => True
  | .keyDown _ _ => cap ≠ .capturing
  | .keyUp k => cap ≠ .captured k
  | .load _ => False

/-! ### Invariants -/

/-- Memory is in its one form (log 13). -/
def State.MemoryCanonical (s : State) : Prop := s.mem.wf = true

/-- 10_state.md R30: a disarmed delay timer counts 0. -/
def State.DisarmedIsZero (s : State) : Prop := s.dtArmed = false → s.dtCount = 0#8

/-- 45_keypad.md R228: while a capture is on, the word at `PC` is an `FX0A`. -/
def State.CaptureAtKeyWait (s : State) : Prop :=
  s.cap ≠ .idle → ∃ w x, s.fetch = some w ∧ decodeWord w = .ok (.ldVxK x)

/-- The invariant of the machine, which every step keeps. -/
def State.Inv (s : State) : Prop := s.MemoryCanonical ∧ s.DisarmedIsZero ∧ s.CaptureAtKeyWait

/-! ### Frames: what stays as it was -/

/-- From s to t only `PC` may differ. -/
def State.OnlyPc (s t : State) : Prop := t = { s with pc := t.pc }

/-- From s to t only `PC` and the general registers may differ. -/
def State.OnlyRegs (s t : State) : Prop := t = { s with v := t.v, pc := t.pc }

/-- From s to t only `PC` and `I` may differ. -/
def State.OnlyIndex (s t : State) : Prop := t = { s with i := t.i, pc := t.pc }

/-- From s to t only `PC` and the call stack may differ. -/
def State.OnlyStack (s t : State) : Prop := t = { s with stack := t.stack, pc := t.pc }

/-- From s to t only `PC`, `I` and memory may differ. -/
def State.OnlyMemory (s t : State) : Prop := t = { s with i := t.i, mem := t.mem, pc := t.pc }

/-- Every byte of memory outside the n bytes from address a reads in t as in s. -/
def State.BytesKeptOutside (s t : State) (a n : Nat) : Prop :=
  ∀ b, ¬ (a ≤ b ∧ b < a + n) → t.mem.read b = s.mem.read b

/-- The program counter of t is that of s plus n, mod 65536 (00_scope.md R9, `next` and `skip`). -/
def State.PcPast (s t : State) (n : Nat) : Prop := t.pc.toNat = (s.pc.toNat + n) % 65536

/-! ### The access matrix (10_state.md R35) -/

/-- The registers an instruction may write: its destination, `VF` as a flag, or `V0..Vx`. -/
def writesReg (j : Instr) (q : Reg) : Bool :=
  match j with
  | .ldImm x _ | .addImm x _ | .rnd x _ | .ldVxDt x | .ldVxK x => q == x
  | .ldReg x _ | .orReg x _ | .andReg x _ | .xorReg x _ => q == x
  | .addReg x _ | .sub x _ | .shr x _ | .subn x _ | .shl x _ => q == x || q == 15
  | .drw _ _ _ => q == 15
  | .ldRegs x => decide (q ≤ x)
  | .cls | .ret | .sys _ | .jp _ | .call _ | .jpV0 _ => false
  | .seImm _ _ | .sneImm _ _ | .seReg _ _ | .sneReg _ _ | .skp _ | .sknp _ => false
  | .ldI _ | .addI _ | .ldF _ | .ldB _ | .stRegs _ | .ldDtVx _ | .ldStVx _ => false

/-- Whether an instruction may write `I`. -/
def writesIndex : Instr → Bool
  | .ldI _ | .addI _ | .ldF _ | .stRegs _ | .ldRegs _ => true
  | .ldImm _ _ | .addImm _ _ | .rnd _ _ | .ldVxDt _ | .ldVxK _ => false
  | .ldReg _ _ | .orReg _ _ | .andReg _ _ | .xorReg _ _ => false
  | .addReg _ _ | .sub _ _ | .shr _ _ | .subn _ _ | .shl _ _ => false
  | .cls | .ret | .sys _ | .jp _ | .call _ | .jpV0 _ | .drw _ _ _ => false
  | .seImm _ _ | .sneImm _ _ | .seReg _ _ | .sneReg _ _ | .skp _ | .sknp _ => false
  | .ldB _ | .ldDtVx _ | .ldStVx _ => false

/-- How many bytes from `I` on an instruction may store to: 3 for `FX33`, x + 1 for `FX55`, else none. -/
def storeLength : Instr → Nat
  | .ldB _ => 3
  | .stRegs x => x.val + 1
  | .ldImm _ _ | .addImm _ _ | .rnd _ _ | .ldVxDt _ | .ldVxK _ => 0
  | .ldReg _ _ | .orReg _ _ | .andReg _ _ | .xorReg _ _ => 0
  | .addReg _ _ | .sub _ _ | .shr _ _ | .subn _ _ | .shl _ _ => 0
  | .cls | .ret | .sys _ | .jp _ | .call _ | .jpV0 _ | .drw _ _ _ => 0
  | .seImm _ _ | .sneImm _ _ | .seReg _ _ | .sneReg _ _ | .skp _ | .sknp _ => 0
  | .ldI _ | .addI _ | .ldF _ | .ldRegs _ | .ldDtVx _ | .ldStVx _ => 0

/-- Whether an instruction can raise a fault of its own (60_exceptions.md R261). -/
def mayFault : Instr → Bool
  | .ret | .sys _ | .drw _ _ _ | .ldB _ | .stRegs _ | .ldRegs _ => true
  | .ldImm _ _ | .addImm _ _ | .rnd _ _ | .ldVxDt _ | .ldVxK _ => false
  | .ldReg _ _ | .orReg _ _ | .andReg _ _ | .xorReg _ _ => false
  | .addReg _ _ | .sub _ _ | .shr _ _ | .subn _ _ | .shl _ _ => false
  | .cls | .jp _ | .call _ | .jpV0 _ => false
  | .seImm _ _ | .sneImm _ _ | .seReg _ _ | .sneReg _ _ | .skp _ | .sknp _ => false
  | .ldI _ | .addI _ | .ldF _ | .ldDtVx _ | .ldStVx _ => false

/-! ### Sprites -/

/-- The sprite's bit that falls on pixel (x, y) when its rows start at column x0, row y0 (44_display.md
R200, R204): row `y - y0`, most significant bit at x0; no bit outside the sprite. -/
def spriteBitAt (octets : List Byte) (x0 y0 x y : Nat) : Bool :=
  decide (x0 ≤ x ∧ x < x0 + Config.spriteWidth ∧ y0 ≤ y) && (octets.getD (y - y0) 0#8).getLsbD (7 - (x - x0))

end Sys2Proof.Machine
end

