-- ==== Sys2Proof/Certificates/Slice0/Obligations.lean ====
section
/-! DEFINITION. The statements for the provers, from the spec's numbered rules. Where a clause rests on a
decision the spec marks as its own (92_eei_decisions.md) or on a choice of the model (notes/assumptions),
the docstring says so. -/

open Sys2Proof Sys2Proof.Machine

/-! ### Encoding (30_encoding.md) -/

/-- Every well-formed instruction, at every value of its fields, is what the decoder reads from the two
bytes the encoder writes, whatever follows them (R70, R72). -/
def Obligations.DecodeEncodeRoundTrip : Prop :=
  ∀ (j : Instr) (rest : List Byte), j.WellFormed →
    decodeBytes (encodeBytes j ++ rest) = .ok (j, rest)

/-- What the decoder reads is well-formed and has exactly that word: no two patterns overlap and no bit
is ignored (R74, R75). -/
def Obligations.EncodeDecodeRoundTrip : Prop :=
  ∀ (w : Word) (j : Instr), decodeWord w = .ok j → j.WellFormed ∧ encode j = w

/-- The words the decoder rejects are exactly those of R77, and it names the word. Rests on the spec's
decision D5 for a nonzero fourth nibble in groups 5 and 9. -/
def Obligations.IllegalWordsAreRejected : Prop :=
  ∀ w : Word,
    ((∃ r, decodeWord w = .error r) ↔
      ((w.toNat / 4096 = 0x5 ∧ w.toNat % 16 ≠ 0) ∨
       (w.toNat / 4096 = 0x8 ∧ (8 ≤ w.toNat % 16 ∧ w.toNat % 16 ≠ 0xE)) ∨
       (w.toNat / 4096 = 0x9 ∧ w.toNat % 16 ≠ 0) ∨
       (w.toNat / 4096 = 0xE ∧ w.toNat % 256 ≠ 0x9E ∧ w.toNat % 256 ≠ 0xA1) ∨
       (w.toNat / 4096 = 0xF ∧ w.toNat % 256 ∉ [0x07, 0x0A, 0x15, 0x18, 0x1E, 0x29, 0x33, 0x55, 0x65]))) ∧
    ∀ r, decodeWord w = .error r → r = .unrecognized w

/-- Words written out from the "encoding" column of the opcode table decode to their instructions: one
or more of each family. -/
def Obligations.SpecWordsDecode : Prop :=
  decodeWord 0b0000000011100000#16 = .ok .cls ∧
  decodeWord 0b0000000011101110#16 = .ok .ret ∧
  decodeWord 0b0000000100100011#16 = .ok (.sys 0x123#12) ∧
  decodeWord 0b0010001000010000#16 = .ok (.call 0x210#12) ∧
  decodeWord 0b0111101000101011#16 = .ok (.addImm 0xA 0x2B#8) ∧
  decodeWord 0b1000001100010111#16 = .ok (.subn 3 1) ∧
  decodeWord 0b1010001100000000#16 = .ok (.ldI 0x300#12) ∧
  decodeWord 0b1101000100100101#16 = .ok (.drw 1 2 5) ∧
  decodeWord 0b1110001010100001#16 = .ok (.sknp 2) ∧
  decodeWord 0b1111001100001010#16 = .ok (.ldVxK 3) ∧
  decodeWord 0b1111010000011000#16 = .ok (.ldStVx 4) ∧
  decodeWord 0b1111001001100101#16 = .ok (.ldRegs 2)

/-- The decoder's fields of every 16-bit word, and how they overlap (R71). -/
def Obligations.FieldsOfWord : Prop :=
  ∀ w : Word,
    (fieldOp w).val = w.toNat / 4096 ∧ (fieldX w).val = w.toNat / 256 % 16 ∧
    (fieldY w).val = w.toNat / 16 % 16 ∧ (fieldN w).val = w.toNat % 16 ∧
    (fieldNN w).toNat = w.toNat % 256 ∧ (fieldNNN w).toNat = w.toNat % 4096 ∧
    (fieldNN w).toNat = (fieldY w).val * 16 + (fieldN w).val ∧
    (fieldNNN w).toNat = (fieldX w).val * 256 + (fieldY w).val * 16 + (fieldN w).val

/-! ### The cycle (40_cycle.md, 20_memory.md, 60_exceptions.md) -/

/-- When the two bytes at `PC`, high-order byte first, decode to an instruction, the step of a running
machine whose next transaction is a cycle is that instruction executed on the opened cycle (R101, R52).
`CycleOpening` and `CycleUpdatesTimerFirst` say what the opening is. -/
def Obligations.StepRunsDecodedInstruction : Prop :=
  ∀ (s : State) (j : Instr), s.status = .running → s.cycleNext → s.pc.toNat + 1 < 4096 →
    decodeBytes [s.mem.read s.pc.toNat, s.mem.read (s.pc.toNat + 1)] = .ok (j, []) →
    step s = exec j s.startCycle

/-- What a cycle does before its fetch, the timer apart: it takes its inputs (the host's where its list
names them, else free ones whose time does not go back), empties the output list, and touches no other
field (R101, R103). How the inputs reach the model is the model's choice (log 2, 3). -/
def Obligations.CycleOpening : Prop :=
  ∀ s : State,
    s.startCycle = { s with
      dtArmed := s.startCycle.dtArmed, dtCount := s.startCycle.dtCount, dtStamp := s.startCycle.dtStamp,
      events := [], reply := .ok, inp := s.startCycle.inp, calls := s.startCycle.calls,
      draws := s.startCycle.draws } ∧
    (∀ inp rest, s.calls = .cycle inp :: rest →
      s.startCycle.inp = inp ∧ s.startCycle.calls = rest ∧ s.startCycle.draws = s.draws) ∧
    (s.calls = [] → s.startCycle.calls = [] ∧ s.startCycle.draws = s.draws + 1 ∧
      s.startCycle.inp.rnd = Config.freeRnd s.draws ∧ s.startCycle.inp.dutiful s.inp.tStart)

/-- The delay-timer update of every cycle's opening (46_timers.md R241, R243), with n the ticks since
the last recorded time: the countdown loses n, stopping at 0, where it disarms; else the time is recorded
(the Nat subtraction stops at 0). And the one law of the ticks (R248): a second or more counts 60 or
more. Rests on the spec's decisions D15 and D30. -/
def Obligations.CycleUpdatesTimerFirst : Prop :=
  ∀ s : State,
    let t := s.startCycle
    let n := ticks s.dtStamp t.inp.tUpdate
    (s.dtArmed = false → t.dtArmed = false ∧ t.dtCount = s.dtCount ∧ t.dtStamp = s.dtStamp) ∧
    (s.dtArmed = true → t.dtArmed = decide (n < s.dtCount.toNat) ∧
      t.dtCount.toNat = s.dtCount.toNat - n ∧
      t.dtStamp = if n < s.dtCount.toNat then t.inp.tUpdate else s.dtStamp) ∧
    (s.dtArmed = true → s.dtCount.toNat ≤ 60 → s.dtStamp + 1 ≤ t.inp.tUpdate →
      t.dtArmed = false ∧ t.dtCount = 0#8)

/-- The two faults a cycle can raise before the instruction: the fetch outside memory, `PC + 1` exact,
and the unrecognized word; each leaves the opened cycle with the status and the result (20_memory.md
R53, 60_exceptions.md R261 to R263). Rests on the spec's decisions D2, D13, D14 and D28; that a fault is
a next state is the model's reading (log 1). -/
def Obligations.FetchAndDecodeFaults : Prop :=
  ∀ s : State, s.status = .running → s.cycleNext →
    (4096 ≤ s.pc.toNat + 1 → step s = .next { s.startCycle with
      status := .faulted (.fetchOutOfBounds s.pc), reply := .fault (.fetchOutOfBounds s.pc) }) ∧
    (∀ w : Word, s.pc.toNat + 1 < 4096 →
      w.toNat = (s.mem.read s.pc.toNat).toNat * 256 + (s.mem.read (s.pc.toNat + 1)).toNat →
      decodeWord w = .error (.unrecognized w) → step s = .next { s.startCycle with
        status := .faulted (.unrecognizedInstruction w), reply := .fault (.unrecognizedInstruction w) })

/-- A step stops only where the spec refuses the transaction: a cycle before any load and a cycle after
a fault (40_cycle.md R106); every other step answers a next state, a faulting cycle too, by the model's
reading that a raised fault is a next state (log 1). Rests on the spec's decisions D12 and D13. -/
def Obligations.StepStopsOnlyOnRefusal : Prop :=
  ∀ s : State,
    (s.cycleNext → s.status = .unloaded → step s = .refused .cycleBeforeLoad) ∧
    (∀ f, s.cycleNext → s.status = .faulted f → step s = .refused (.cycleAfterFault f)) ∧
    (s.cycleNext → s.status = .running → ∃ t, step s = .next t) ∧
    (¬ s.cycleNext → ∃ t, step s = .next t)

/-- The host's other calls are steps of their own, accepted in every status, and take no cycle
(40_cycle.md R105, R106). That State lists them is the model's choice (log 3). -/
def Obligations.HostCallsRunBetweenCycles : Prop :=
  ∀ (s : State) (rest : List Call),
    (∀ k choice, s.calls = .keyDown k choice :: rest →
      step s = .next (keyDown k choice { s with calls := rest, events := [], reply := .ok })) ∧
    (∀ k, s.calls = .keyUp k :: rest →
      step s = .next (keyUp k { s with calls := rest, events := [], reply := .ok })) ∧
    (∀ p, s.calls = .load p :: rest →
      step s = .next (load p { s with calls := rest, events := [], reply := .ok }))

/-- Every instruction, on every state, answers a next state: a fault is taken, never a stop
(60_exceptions.md R262; 70_reset_and_hazards.md R310). That a fault is a next state is the model's
reading (log 1). -/
def Obligations.EveryInstructionAnswersNext : Prop :=
  ∀ (j : Instr) (s : State), ∃ t, exec j s = .next t

/-! ### Control flow (41_control_flow.md) -/

/-- `1NNN` (R131): its encoding; `PC` is nnn and nothing else changes. -/
def Obligations.JpSetsPc : Prop :=
  ∀ (nnn : Addr12) (s : State), decodeWord (0x1#4 ++ nnn) = .ok (.jp nnn) ∧
    ∃ t, exec (.jp nnn) s = .next t ∧ t.pc.toNat = nnn.toNat ∧ s.OnlyPc t

/-- `2NNN` (R132): its encoding; the address after the call, mod 65536, is pushed, `PC` is nnn, and
nothing else changes. That the list holds the latest entry first is the model's choice (log 16). -/
def Obligations.CallPushesReturnAddress : Prop :=
  ∀ (nnn : Addr12) (s : State), decodeWord (0x2#4 ++ nnn) = .ok (.call nnn) ∧
    ∃ t ra, exec (.call nnn) s = .next t ∧ t.stack = ra :: s.stack ∧
      ra.toNat = (s.pc.toNat + 2) % 65536 ∧ t.pc.toNat = nnn.toNat ∧ s.OnlyStack t

/-- `00EE` (R130): its word; `PC` is popped from the call stack, whose latest entry stands first in the
list by the model's choice (log 16); on an empty stack the cycle faults with StackUnderflow at this `PC`
(the spec's decisions D3 and D13), a next state by the model's reading (log 1). -/
def Obligations.RetPopsOrFaults : Prop :=
  decodeWord 0x00EE#16 = .ok .ret ∧
  ∀ s : State,
    (∀ a rest, s.stack = a :: rest →
      ∃ t, exec .ret s = .next t ∧ t.pc = a ∧ t.stack = rest ∧ s.OnlyStack t) ∧
    (s.stack = [] → exec .ret s = .next { s with
      status := .faulted (.stackUnderflow s.pc), reply := .fault (.stackUnderflow s.pc) })

/-- `BNNN` (R133): its encoding; `PC` is nnn plus V0, always V0, a sum the width never cuts. -/
def Obligations.JpV0AddsV0 : Prop :=
  ∀ (nnn : Addr12) (s : State), decodeWord (0xB#4 ++ nnn) = .ok (.jpV0 nnn) ∧
    ∃ t, exec (.jpV0 nnn) s = .next t ∧ t.pc.toNat = nnn.toNat + (s.reg 0).toNat ∧ s.OnlyPc t

/-- `3XNN` and `4XNN` (R134, R135): their encodings; skip on equal, skip on different, else next. -/
def Obligations.ImmediateSkips : Prop :=
  ∀ (x : Reg) (nn : Byte) (s : State),
    decodeWord (0x3#4 ++ (nibble x ++ nn)) = .ok (.seImm x nn) ∧
    decodeWord (0x4#4 ++ (nibble x ++ nn)) = .ok (.sneImm x nn) ∧
    (∃ t, exec (.seImm x nn) s = .next t ∧ s.PcPast t (if s.reg x = nn then 4 else 2) ∧ s.OnlyPc t) ∧
    (∃ t, exec (.sneImm x nn) s = .next t ∧ s.PcPast t (if s.reg x = nn then 2 else 4) ∧ s.OnlyPc t)

/-- `5XY0` and `9XY0` (R136, R137): their encodings, a nonzero fourth nibble being no instruction (the
spec's decision D5); skip on equal, skip on different, else next. -/
def Obligations.RegisterSkips : Prop :=
  ∀ (x y : Reg) (n : BitVec 4) (s : State),
    decodeWord (0x5#4 ++ (nibble x ++ (nibble y ++ 0x0#4))) = .ok (.seReg x y) ∧
    decodeWord (0x9#4 ++ (nibble x ++ (nibble y ++ 0x0#4))) = .ok (.sneReg x y) ∧
    (n ≠ 0#4 → (∃ r, decodeWord (0x5#4 ++ (nibble x ++ (nibble y ++ n))) = .error r) ∧
      (∃ r, decodeWord (0x9#4 ++ (nibble x ++ (nibble y ++ n))) = .error r)) ∧
    (∃ t, exec (.seReg x y) s = .next t ∧
      s.PcPast t (if s.reg x = s.reg y then 4 else 2) ∧ s.OnlyPc t) ∧
    (∃ t, exec (.sneReg x y) s = .next t ∧
      s.PcPast t (if s.reg x = s.reg y then 2 else 4) ∧ s.OnlyPc t)

/-- `0NNN` (R139): every other group-0 word decodes to it and faults Op0Unspecified with its own word,
`PC` kept. The spec's decisions D4 and D13; that a fault is a next state is the model's reading (log 1). -/
def Obligations.SysFaults : Prop :=
  ∀ (nnn : Addr12) (s : State), nnn ≠ 0x0E0#12 → nnn ≠ 0x0EE#12 →
    decodeWord (0x0#4 ++ nnn) = .ok (.sys nnn) ∧
    exec (.sys nnn) s = .next { s with
      status := .faulted (.op0Unspecified (0x0#4 ++ nnn)), reply := .fault (.op0Unspecified (0x0#4 ++ nnn)) }

/-! ### Registers and ALU (42_register_alu.md) -/

/-- `6XNN` and `8XY0` (R150, R153): their encodings; `Vx` is nn, `Vx` is `Vy`; no flag. -/
def Obligations.LoadsWriteVx : Prop :=
  ∀ (x y : Reg) (nn : Byte) (s : State),
    decodeWord (0x6#4 ++ (nibble x ++ nn)) = .ok (.ldImm x nn) ∧
    decodeWord (0x8#4 ++ (nibble x ++ (nibble y ++ 0x0#4))) = .ok (.ldReg x y) ∧
    (∃ t, exec (.ldImm x nn) s = .next t ∧ (∀ q, t.reg q = if q = x then nn else s.reg q) ∧
      s.PcPast t 2 ∧ s.OnlyRegs t) ∧
    (∃ t, exec (.ldReg x y) s = .next t ∧ (∀ q, t.reg q = if q = x then s.reg y else s.reg q) ∧
      s.PcPast t 2 ∧ s.OnlyRegs t)

/-- `7XNN` (R151): its encoding; the sum mod 256, and no flag: every other register, `VF` too, stays. -/
def Obligations.AddImmWraps : Prop :=
  ∀ (x : Reg) (nn : Byte) (s : State), decodeWord (0x7#4 ++ (nibble x ++ nn)) = .ok (.addImm x nn) ∧
    ∃ t, exec (.addImm x nn) s = .next t ∧
      (t.reg x).toNat = ((s.reg x).toNat + nn.toNat) % 256 ∧ (∀ q, q ≠ x → t.reg q = s.reg q) ∧
      s.PcPast t 2 ∧ s.OnlyRegs t

/-- `8XY1`, `8XY2` and `8XY3` (R154 to R156): their encodings; OR, AND and XOR, bit by bit; `VF` is not
written as a flag, the spec's decision D33. -/
def Obligations.LogicOpsWriteVxOnly : Prop :=
  ∀ (x y : Reg) (s : State),
    decodeWord (0x8#4 ++ (nibble x ++ (nibble y ++ 0x1#4))) = .ok (.orReg x y) ∧
    decodeWord (0x8#4 ++ (nibble x ++ (nibble y ++ 0x2#4))) = .ok (.andReg x y) ∧
    decodeWord (0x8#4 ++ (nibble x ++ (nibble y ++ 0x3#4))) = .ok (.xorReg x y) ∧
    (∃ t, exec (.orReg x y) s = .next t ∧
      (∀ b : Nat, (t.reg x).getLsbD b = ((s.reg x).getLsbD b || (s.reg y).getLsbD b)) ∧
      (∀ q, q ≠ x → t.reg q = s.reg q) ∧ s.PcPast t 2 ∧ s.OnlyRegs t) ∧
    (∃ t, exec (.andReg x y) s = .next t ∧
      (∀ b : Nat, (t.reg x).getLsbD b = ((s.reg x).getLsbD b && (s.reg y).getLsbD b)) ∧
      (∀ q, q ≠ x → t.reg q = s.reg q) ∧ s.PcPast t 2 ∧ s.OnlyRegs t) ∧
    (∃ t, exec (.xorReg x y) s = .next t ∧
      (∀ b : Nat, (t.reg x).getLsbD b = ((s.reg x).getLsbD b ^^ (s.reg y).getLsbD b)) ∧
      (∀ q, q ≠ x → t.reg q = s.reg q) ∧ s.PcPast t 2 ∧ s.OnlyRegs t)

/-- `8XY4` (R157): its encoding; the sum mod 256 in `Vx`, then the carry in `VF`, so that with x = F the
carry is what stays. -/
def Obligations.AddRegSetsCarryLast : Prop :=
  ∀ (x y : Reg) (s : State),
    decodeWord (0x8#4 ++ (nibble x ++ (nibble y ++ 0x4#4))) = .ok (.addReg x y) ∧
    ∃ t, exec (.addReg x y) s = .next t ∧
      t.reg 15 = (if (s.reg x).toNat + (s.reg y).toNat > 255 then 1#8 else 0#8) ∧
      (x ≠ 15 → (t.reg x).toNat = ((s.reg x).toNat + (s.reg y).toNat) % 256) ∧
      (∀ q, q ≠ x → q ≠ 15 → t.reg q = s.reg q) ∧ s.PcPast t 2 ∧ s.OnlyRegs t

/-- `8XY5` (R158): its encoding; `Vx - Vy` mod 256, then not-borrow in `VF`. That the minuend is `Vx` is
an inference the spec marks as its own. -/
def Obligations.SubSetsNotBorrowLast : Prop :=
  ∀ (x y : Reg) (s : State),
    decodeWord (0x8#4 ++ (nibble x ++ (nibble y ++ 0x5#4))) = .ok (.sub x y) ∧
    ∃ t, exec (.sub x y) s = .next t ∧
      t.reg 15 = (if (s.reg x).toNat ≥ (s.reg y).toNat then 1#8 else 0#8) ∧
      (x ≠ 15 → ((t.reg x).toNat : Int) = (((s.reg x).toNat : Int) - ((s.reg y).toNat : Int)) % 256) ∧
      (∀ q, q ≠ x → q ≠ 15 → t.reg q = s.reg q) ∧ s.PcPast t 2 ∧ s.OnlyRegs t

/-- `8XY6` (R159): its encoding; the source is `Vy`, halved into `Vx`; the bit moved out goes to `VF`. -/
def Obligations.ShrReadsVy : Prop :=
  ∀ (x y : Reg) (s : State),
    decodeWord (0x8#4 ++ (nibble x ++ (nibble y ++ 0x6#4))) = .ok (.shr x y) ∧
    ∃ t, exec (.shr x y) s = .next t ∧
      (t.reg 15).toNat = (s.reg y).toNat % 2 ∧
      (x ≠ 15 → (t.reg x).toNat = (s.reg y).toNat / 2) ∧
      (∀ q, q ≠ x → q ≠ 15 → t.reg q = s.reg q) ∧ s.PcPast t 2 ∧ s.OnlyRegs t

/-- `8XY7` (R160): its encoding; `Vy - Vx` mod 256, then not-borrow in `VF`. -/
def Obligations.SubnSetsNotBorrowLast : Prop :=
  ∀ (x y : Reg) (s : State),
    decodeWord (0x8#4 ++ (nibble x ++ (nibble y ++ 0x7#4))) = .ok (.subn x y) ∧
    ∃ t, exec (.subn x y) s = .next t ∧
      t.reg 15 = (if (s.reg y).toNat ≥ (s.reg x).toNat then 1#8 else 0#8) ∧
      (x ≠ 15 → ((t.reg x).toNat : Int) = (((s.reg y).toNat : Int) - ((s.reg x).toNat : Int)) % 256) ∧
      (∀ q, q ≠ x → q ≠ 15 → t.reg q = s.reg q) ∧ s.PcPast t 2 ∧ s.OnlyRegs t

/-- `8XYE` (R161): its encoding; the source is `Vy`, doubled mod 256 into `Vx`; bit 7 goes to `VF`. -/
def Obligations.ShlReadsVy : Prop :=
  ∀ (x y : Reg) (s : State),
    decodeWord (0x8#4 ++ (nibble x ++ (nibble y ++ 0xE#4))) = .ok (.shl x y) ∧
    ∃ t, exec (.shl x y) s = .next t ∧
      (t.reg 15).toNat = (s.reg y).toNat / 128 ∧
      (x ≠ 15 → (t.reg x).toNat = (s.reg y).toNat * 2 % 256) ∧
      (∀ q, q ≠ x → q ≠ 15 → t.reg q = s.reg q) ∧ s.PcPast t 2 ∧ s.OnlyRegs t

/-- `CXNN` (R163): its encoding; `Vx` is the cycle's random byte under the mask, for every byte. -/
def Obligations.RndMasksRandomByte : Prop :=
  ∀ (x : Reg) (nn : Byte) (s : State), decodeWord (0xC#4 ++ (nibble x ++ nn)) = .ok (.rnd x nn) ∧
    ∃ t, exec (.rnd x nn) s = .next t ∧
      (∀ b : Nat, (t.reg x).getLsbD b = (s.inp.rnd.getLsbD b && nn.getLsbD b)) ∧
      (∀ q, q ≠ x → t.reg q = s.reg q) ∧ s.PcPast t 2 ∧ s.OnlyRegs t

/-! ### Index register and memory (43_index_memory.md) -/

/-- `ANNN` (R180): its encoding; `I` is nnn. -/
def Obligations.LdISetsIndex : Prop :=
  ∀ (nnn : Addr12) (s : State), decodeWord (0xA#4 ++ nnn) = .ok (.ldI nnn) ∧
    ∃ t, exec (.ldI nnn) s = .next t ∧ t.i.toNat = nnn.toNat ∧ s.PcPast t 2 ∧ s.OnlyIndex t

/-- `FX1E` and `FX29` (R181, R182): their encodings; `I` plus `Vx` mod 65536, with no flag (the spec's
decision D34); the address of the glyph of `Vx`'s low nibble, 5 bytes each from 0x000 on (the spec's
decision D8). -/
def Obligations.IndexArithmetic : Prop :=
  ∀ (x : Reg) (s : State),
    decodeWord (0xF#4 ++ (nibble x ++ 0x1E#8)) = .ok (.addI x) ∧
    decodeWord (0xF#4 ++ (nibble x ++ 0x29#8)) = .ok (.ldF x) ∧
    (∃ t, exec (.addI x) s = .next t ∧ t.i.toNat = (s.i.toNat + (s.reg x).toNat) % 65536 ∧
      s.PcPast t 2 ∧ s.OnlyIndex t) ∧
    (∃ t, exec (.ldF x) s = .next t ∧ t.i.toNat = 5 * ((s.reg x).toNat % 16) ∧
      s.PcPast t 2 ∧ s.OnlyIndex t)

/-- `FX33` (R183): its encoding; with `I + 2` in memory the three decimal digits go to `I`, `I + 1` and
`I + 2`, every other byte and `I` stay; else the cycle faults with no byte written, the address exact (the
spec's decisions D13 and D28), a next state by the model's reading (log 1). -/
def Obligations.BcdStoresDigitsOrFaults : Prop :=
  ∀ (x : Reg) (s : State),
    decodeWord (0xF#4 ++ (nibble x ++ 0x33#8)) = .ok (.ldB x) ∧
    (s.i.toNat + 2 < 4096 → ∃ t, exec (.ldB x) s = .next t ∧
      (t.mem.read s.i.toNat).toNat = (s.reg x).toNat / 100 ∧
      (t.mem.read (s.i.toNat + 1)).toNat = (s.reg x).toNat / 10 % 10 ∧
      (t.mem.read (s.i.toNat + 2)).toNat = (s.reg x).toNat % 10 ∧
      s.BytesKeptOutside t s.i.toNat 3 ∧ t.i = s.i ∧ s.PcPast t 2 ∧ s.OnlyMemory t) ∧
    (4096 ≤ s.i.toNat + 2 → exec (.ldB x) s = .next { s with
      status := .faulted (.bcdOutOfBounds s.i), reply := .fault (.bcdOutOfBounds s.i) })

/-- `FX55` (R184), its range in memory: `V0..Vx` go to `I..I+x`, every other byte stays, and `I` moves
past them. The bounds condition is the spec's decision D2. -/
def Obligations.StoreRegsWritesRange : Prop :=
  ∀ (x : Reg) (s : State), s.i.toNat + x.val < 4096 →
    ∃ t, exec (.stRegs x) s = .next t ∧
      (∀ q : Reg, q ≤ x → t.mem.read (s.i.toNat + q.val) = s.reg q) ∧
      s.BytesKeptOutside t s.i.toNat (x.val + 1) ∧ t.i.toNat = s.i.toNat + x.val + 1 ∧
      s.PcPast t 2 ∧ s.OnlyMemory t

/-- `FX65` (R185), its range in memory: `V0..Vx` are loaded from `I..I+x`, the registers above stay, and
`I` moves past the bytes. The bounds condition is the spec's decision D2. -/
def Obligations.LoadRegsReadsRange : Prop :=
  ∀ (x : Reg) (s : State), s.i.toNat + x.val < 4096 →
    ∃ t, exec (.ldRegs x) s = .next t ∧
      (∀ q : Reg, t.reg q = if q ≤ x then s.mem.read (s.i.toNat + q.val) else s.reg q) ∧
      t.i.toNat = s.i.toNat + x.val + 1 ∧ s.PcPast t 2 ∧
      t = { s with v := t.v, i := t.i, pc := t.pc }

/-- `FX55`, `FX65` and `DXYN` with a range that leaves memory fault MemoryOutOfBounds with the word and
the lowest address out of range (20_memory.md R56), and change nothing else (60_exceptions.md R262, R264).
The spec's decisions D2, D13, D19 and D28; that a fault is a next state is the model's reading (log 1),
and that the word is the instruction's encoding is its inference (log 18). -/
def Obligations.RangesOutsideMemoryFault : Prop :=
  ∀ (x y : Reg) (n : Fin 16) (s : State),
    let out (w : Word) : State := { s with
      status := .faulted (.memoryOutOfBounds w (max s.i.toNat 4096))
      reply := .fault (.memoryOutOfBounds w (max s.i.toNat 4096)) }
    (4096 ≤ s.i.toNat + x.val →
      exec (.stRegs x) s = .next (out (0xF#4 ++ (nibble x ++ 0x55#8))) ∧
      exec (.ldRegs x) s = .next (out (0xF#4 ++ (nibble x ++ 0x65#8)))) ∧
    (0 < n.val → 4096 < s.i.toNat + n.val →
      exec (.drw x y n) s = .next (out (0xD#4 ++ (nibble x ++ (nibble y ++ nibble n)))))

/-- `FX55` and `FX65` are a round trip (95_test_vectors.md E4): what is stored from `V0..Vx` comes back,
whatever the registers hold in between, once `I` is set back. -/
def Obligations.StoreThenLoadRestores : Prop :=
  ∀ (x : Reg) (s : State), s.i.toNat + x.val < 4096 →
    ∃ t, exec (.stRegs x) s = .next t ∧ ∀ v : Vector Byte 16,
      ∃ u, exec (.ldRegs x) { t with v := v, i := s.i } = .next u ∧
        (∀ q : Reg, q ≤ x → u.reg q = s.reg q) ∧ u.i = t.i ∧ u.mem = t.mem

/-- Two bytes that `FX55` stores side by side are the word a later fetch there reads, high byte first
(20_memory.md R65, R67; the spec marks both as derived). -/
def Obligations.StoreIntoCodeIsFetched : Prop :=
  ∀ (x q : Reg) (s t : State), s.i.toNat + x.val < 4096 → q < x → exec (.stRegs x) s = .next t →
    ∀ u : State, u.mem = t.mem → u.pc.toNat = s.i.toNat + q.val →
      u.fetch = some (s.reg q ++ s.reg (q + 1))

/-! ### Display (44_display.md) -/

/-- `00E0` (R203): its encoding; every pixel unset, one ClearScreen event, `VF` and all else kept. That
the renderer gets this one event only is the spec's decision D20. -/
def Obligations.ClsUnsetsEveryPixel : Prop :=
  decodeWord 0x00E0#16 = .ok .cls ∧
  ∀ s : State, ∃ t, exec .cls s = .next t ∧ (∀ px py, t.d.get px py = false) ∧
    t.events = s.events ++ [.clearScreen] ∧ s.PcPast t 2 ∧
    t = { s with d := t.d, events := t.events, pc := t.pc }

/-- `DXYN` (R204, R200), its bytes in memory: every pixel is XORed with the sprite's bit on it, rows
below 31 and columns past 63 dropped, and `VF` is 1 or 0 as some set pixel was unset or not; the start
is taken before `VF` is written; nothing else but the event list and `PC` changes. The bounds condition
and n = 0 are the spec's decisions D2 and D19. -/
def Obligations.DrawXorsSpriteAndSetsCollision : Prop :=
  ∀ (x y : Reg) (n : Fin 16) (s : State), (n.val = 0 ∨ s.i.toNat + n.val ≤ 4096) →
    let sprite (px : Fin 64) (py : Fin 32) : Bool :=
      spriteBitAt (s.mem.readBytes s.i.toNat n.val) ((s.reg x).toNat % 64) ((s.reg y).toNat % 32) px.val py.val
    ∃ t, exec (.drw x y n) s = .next t ∧
      (∀ px py, t.d.get px py = (s.d.get px py ^^ sprite px py)) ∧
      (t.reg 15 = 1#8 ↔ ∃ px py, sprite px py = true ∧ s.d.get px py = true) ∧
      (t.reg 15 = 0#8 ∨ t.reg 15 = 1#8) ∧ (∀ q, q ≠ 15 → t.reg q = s.reg q) ∧ s.PcPast t 2 ∧
      t = { s with d := t.d, v := t.v, events := t.events, pc := t.pc }

/-- `DXYN` emits one DrawPixels whose records are exactly the pixels of the sprite's 8 by n rectangle,
clipped, with their values after the draw (R205, R202), from the column and row R204 gives. The spec's
decisions D20, D2 for the bounds condition, and D19 for n = 0, which emits no record whatever `I` is; the
list stands for a set (log 14). -/
def Obligations.DrawEmitsItsRectangle : Prop :=
  ∀ (x y : Reg) (n : Fin 16) (s : State), (n.val = 0 ∨ s.i.toNat + n.val ≤ 4096) →
    ∃ t recs, exec (.drw x y n) s = .next t ∧ t.events = s.events ++ [.drawPixels recs] ∧
      ∀ p : Pixel, p ∈ recs ↔
        ((s.reg x).toNat % 64 ≤ p.x.val ∧ p.x.val < (s.reg x).toNat % 64 + 8) ∧
        ((s.reg y).toNat % 32 ≤ p.y.val ∧ p.y.val < (s.reg y).toNat % 32 + n.val) ∧
        p.value = t.d.get p.x p.y

/-- Drawing a sprite twice at one place restores the buffer (95_test_vectors.md E5), and the second draw
collides exactly where the first one set a pixel. The bounds condition and n = 0 are the spec's decisions
D2 and D19. -/
def Obligations.DrawTwiceRestores : Prop :=
  ∀ (x y : Reg) (n : Fin 16) (s t u : State), (n.val = 0 ∨ s.i.toNat + n.val ≤ 4096) →
    exec (.drw x y n) s = .next t → exec (.drw x y n) { t with v := s.v } = .next u →
    u.d = s.d ∧ (u.reg 15 = 1#8 ↔ ∃ px py, t.d.get px py = true ∧ s.d.get px py = false)

/-! ### Keypad (45_keypad.md) -/

/-- `EX9E` and `EXA1` (R224, R225): their encodings; skip on the key of `Vx`'s low nibble pressed, skip
on it not pressed, else next. -/
def Obligations.KeySkips : Prop :=
  ∀ (x : Reg) (s : State) (k : Key), k.val = (s.reg x).toNat % 16 →
    decodeWord (0xE#4 ++ (nibble x ++ 0x9E#8)) = .ok (.skp x) ∧
    decodeWord (0xE#4 ++ (nibble x ++ 0xA1#8)) = .ok (.sknp x) ∧
    (∃ t, exec (.skp x) s = .next t ∧ s.PcPast t (if s.held k = true then 4 else 2) ∧ s.OnlyPc t) ∧
    (∃ t, exec (.sknp x) s = .next t ∧ s.PcPast t (if s.held k = true then 2 else 4) ∧ s.OnlyPc t)

/-- `FX0A` (R226): its encoding; it arms the capture, waits for a press and then for the release, all at
the same `PC`, and then delivers the key's code. -/
def Obligations.KeyWaitFollowsCapture : Prop :=
  ∀ (x : Reg) (s : State), decodeWord (0xF#4 ++ (nibble x ++ 0x0A#8)) = .ok (.ldVxK x) ∧
    (s.cap = .idle → exec (.ldVxK x) s = .next { s with cap := .capturing }) ∧
    (s.cap = .capturing → exec (.ldVxK x) s = .next s) ∧
    (∀ k, s.cap = .captured k → s.held k = true → exec (.ldVxK x) s = .next s) ∧
    (∀ k, s.cap = .captured k → s.held k = false → ∃ t, exec (.ldVxK x) s = .next t ∧
      (t.reg x).toNat = k.val ∧ (∀ q, q ≠ x → t.reg q = s.reg q) ∧ t.cap = .idle ∧ s.PcPast t 2 ∧
      t = { s with v := t.v, cap := .idle, pc := t.pc })

/-- `key_down(k)` (R221): the flag is set; a press while capturing is captured and sounds the tone; a
repeat of a held key while capturing does so at the host's choice (the spec's decision D18), and in
every other case the flag is all that changes. The tone's length is open (the spec's decision D17). -/
def Obligations.KeyDownCaptures : Prop :=
  ∀ (k : Key) (choice : Bool) (s : State),
    (∀ q, (keyDown k choice s).held q = if q = k then true else s.held q) ∧
    ((s.cap = .capturing ∧ (s.held k = false ∨ choice = true)) →
      keyDown k choice s = { s with k := (keyDown k choice s).k, cap := .captured k,
                                    events := s.events ++ [.playTone captureTone] }) ∧
    (¬ (s.cap = .capturing ∧ (s.held k = false ∨ choice = true)) →
      keyDown k choice s = { s with k := (keyDown k choice s).k }) ∧
    0 ≤ captureTone

/-- `key_up(k)` (R222): the flag is cleared, held or not; the capture state and the events stay. -/
def Obligations.KeyUpClearsFlag : Prop :=
  ∀ (k : Key) (s : State),
    (∀ q, (keyUp k s).held q = if q = k then false else s.held q) ∧
    keyUp k s = { s with k := (keyUp k s).k }

/-- A press and its release around a cycle complete a key wait (R220, R226; 95_test_vectors.md E7): two
calls and two cycles later `Vx` holds the key and `PC` has moved on. That these four transactions are the
four next steps, from the list of calls, is the model's choice (log 3). -/
def Obligations.PressAndReleaseDeliverKey : Prop :=
  ∀ (x : Reg) (k : Key) (choice : Bool) (a b : CycleInputs) (rest : List Call) (w : Word) (s : State),
    s.status = .running → s.cap = .capturing → s.held k = false →
    s.fetch = some w → decodeWord w = .ok (.ldVxK x) →
    s.calls = .keyDown k choice :: .cycle a :: .keyUp k :: .cycle b :: rest →
    ∃ t, Host.Core.run core 4 s = .next t ∧ (t.reg x).toNat = k.val ∧ t.cap = .idle ∧
      s.PcPast t 2 ∧ t.calls = rest ∧ t.mem = s.mem

/-- A key wait ends only by a key event (R227): while no press comes during a capture, or no release of
the captured key that is held, then after any number of steps the machine is running at the same `PC` in
the same capture state and has changed no register, no byte, no stack entry and no pixel. Other key events
may come. That the host's calls stand in a list, with a cycle where it is empty, is the model's choice
(log 3). -/
def Obligations.KeyWaitWithoutKeysHangs : Prop :=
  ∀ (n : Nat) (x : Reg) (w : Word) (s : State),
    s.status = .running → s.WaitsForKey → s.fetch = some w → decodeWord w = .ok (.ldVxK x) →
    (∀ c ∈ s.calls, c.KeepsWaiting s.cap) →
    ∃ t, Host.Core.run core n s = .next t ∧ t.pc = s.pc ∧ t.cap = s.cap ∧ t.status = .running ∧
      t.v = s.v ∧ t.i = s.i ∧ t.stack = s.stack ∧ t.mem = s.mem ∧ t.d = s.d

/-! ### Timers and sound (46_timers.md) -/

/-- `FX15` (R245): its encoding; the timer is armed with `Vx` at the cycle's `t_start`, replacing any
running countdown. -/
def Obligations.SetTimerArms : Prop :=
  ∀ (x : Reg) (s : State), decodeWord (0xF#4 ++ (nibble x ++ 0x15#8)) = .ok (.ldDtVx x) ∧
    ∃ t, exec (.ldDtVx x) s = .next t ∧ s.PcPast t 2 ∧
      t = { s with dtArmed := true, dtCount := s.reg x, dtStamp := s.inp.tStart, pc := t.pc }

/-- `FX07` and `value()` (R244, R242): its encoding; `Vx` is the countdown, zero if disarmed, on the
state the cycle's update left. -/
def Obligations.ReadTimerGivesValue : Prop :=
  ∀ (x : Reg) (s : State), decodeWord (0xF#4 ++ (nibble x ++ 0x07#8)) = .ok (.ldVxDt x) ∧
    ∃ t, exec (.ldVxDt x) s = .next t ∧
      t.reg x = (if s.dtArmed = true then s.dtCount else 0#8) ∧ (∀ q, q ≠ x → t.reg q = s.reg q) ∧
      s.PcPast t 2 ∧ s.OnlyRegs t

/-- `FX18` (R246, R247): one tone request of exactly `Vx` 60ths of a second, also for 0 (the spec's
decisions D21 and D31), and no state but the event list and `PC`. -/
def Obligations.SoundRequestsTone : Prop :=
  ∀ (x : Reg) (s : State), ∃ t q, exec (.ldStVx x) s = .next t ∧
    t.events = s.events ++ [.playTone q] ∧ q * 60 = ((s.reg x).toNat : Rat) ∧ s.PcPast t 2 ∧
    t = { s with events := t.events, pc := t.pc }

/-! ### Load and reset (70_reset_and_hazards.md) -/

/-- A failed load changes nothing but the result it returns (R302). -/
def Obligations.FailedLoadChangesNothing : Prop :=
  ∀ (p : Option (List Byte)) (s : State), (load p s).reply ≠ .ok →
    load p s = { s with reply := (load p s).reply }

/-- Which programs load, and what a successful load leaves in every field and every byte (R300, R301;
20_memory.md R55). Rests on the spec's decisions D6 to D11, D13, D20 and D24; dt_stamp is left open. -/
def Obligations.LoadResetsWholeMachine : Prop :=
  ∀ s : State,
    (load none s).reply = .absentProgram ∧ (load (some []) s).reply = .absentProgram ∧
    (∀ p : List Byte, 3584 < p.length → (load (some p) s).reply = .oversizedProgram) ∧
    (∀ p : List Byte, p ≠ [] → p.length ≤ 3584 →
      let t := load (some p) s
      t.reply = .ok ∧ (∀ q, t.reg q = 0#8) ∧ t.i = 0#16 ∧ t.pc = 0x200#16 ∧ t.stack = [] ∧
      (∀ a, a < 4096 → t.mem.read a =
        if a < 80 then Config.font a else if a < 512 then 0#8
        else if a < 512 + p.length then p.getD (a - 512) 0#8 else 0#8) ∧
      (∀ px py, t.d.get px py = false) ∧ (∀ k, t.held k = false) ∧ t.cap = .idle ∧
      t.dtArmed = false ∧ t.dtCount = 0#8 ∧ t.status = .running ∧ t.events = s.events)

/-- The reset state is what `load` leaves of a program of one zero byte, and it meets the invariant. Model's
choices: that reset places no program byte (log 9), `dt_stamp` = 0, which the spec leaves unspecified
(log 11), the model's own fields (log 12) and the fields before the first load (log 17). -/
def Obligations.ResetIsLoadedAndInvariant : Prop :=
  load (some [0x00#8]) State.unloaded = State.reset ∧ State.reset.Inv

/-! ### Whole-machine rules -/

/-- Every step keeps the invariant: memory in its one form (log 13), a disarmed timer at 0 (10_state.md
R30), and an `FX0A` at `PC` while a capture is on (45_keypad.md R228). The last two are the spec's own
derivations. -/
def Obligations.StepKeepsInvariant : Prop :=
  ∀ s t : State, s.Inv → step s = .next t → t.Inv

/-- A cycle emits at most one event, and a faulting cycle none (40_cycle.md R104, derived there). -/
def Obligations.CycleEmitsAtMostOneEvent : Prop :=
  ∀ s t : State, s.cycleNext → step s = .next t →
    t.events.length ≤ 1 ∧ ∀ f, t.status = .faulted f → t.events = []

/-- Faults are precise (60_exceptions.md R264): the state a faulting cycle leaves is the opened cycle's,
the timer update done, with the status and the result set. Rests on the spec's decisions D2 and D13, and on
the model's reading that a fault is a next state (log 1). -/
def Obligations.FaultsArePrecise : Prop :=
  ∀ (s t : State) (f : Fault), s.cycleNext → step s = .next t → t.status = .faulted f →
    t = { s.startCycle with status := .faulted f, reply := .fault f }

/-- Who writes what (the access matrix, 10_state.md R35, derived there): registers, `I`, memory, the call
stack, the buffer, the capture state, the timer and the events change by no instruction but those of their
column, and no instruction writes a key flag. `status`, which the matrix has no column for, changes by no
instruction but those that can fault, and by a fault alone (log 1: a fault is a next state). The model's
own input fields stay (log 2, 3). -/
def Obligations.InstructionsKeepAccessMatrix : Prop :=
  ∀ (j : Instr) (s t : State), exec j s = .next t →
    (∀ q, writesReg j q = false → t.reg q = s.reg q) ∧
    (writesIndex j = false → t.i = s.i) ∧
    s.BytesKeptOutside t s.i.toNat (storeLength j) ∧
    (j ≠ .ret → (∀ a, j ≠ .call a) → t.stack = s.stack) ∧
    (j ≠ .cls → (∀ x y n, j ≠ .drw x y n) → t.d = s.d) ∧
    ((∀ x, j ≠ .ldVxK x) → t.cap = s.cap) ∧
    ((∀ x, j ≠ .ldDtVx x) → t.dtArmed = s.dtArmed ∧ t.dtCount = s.dtCount ∧ t.dtStamp = s.dtStamp) ∧
    (j ≠ .cls → (∀ x y n, j ≠ .drw x y n) → (∀ x, j ≠ .ldStVx x) → t.events = s.events) ∧
    (∀ k, t.held k = s.held k) ∧
    ((t.status = s.status ∧ t.reply = s.reply) ∨
      (mayFault j = true ∧ ∃ f, t = { s with status := .faulted f, reply := .fault f })) ∧
    t.inp = s.inp ∧ t.calls = s.calls ∧ t.draws = s.draws

/-- Who writes memory (20_memory.md R50): `FX33` and `FX55` store only to the 3 or x + 1 bytes from `I`
on; every other byte, and all of memory for every other instruction, reads as before. -/
def Obligations.OnlyStoresWriteMemory : Prop :=
  ∀ (j : Instr) (s t : State), exec j s = .next t → s.BytesKeptOutside t s.i.toNat (storeLength j)

/-- Memory has one form: two canonical memories that read alike at every address are the same data. The
form is the model's choice (log 13). -/
def Obligations.CanonicalMemoryIsUnique : Prop :=
  ∀ m m' : Memory, m.wf = true → m'.wf = true → (∀ a, m.read a = m'.read a) → m = m'

/-! ### Runs (40_cycle.md R110) -/

/-- Where a run ends and what is observed there (R110): it ends at the first of its points whose cycle
count, or whose `PC`, is the given one, and is observed as that point's state and the concatenated event
lists of the transactions up to it. R110 is the spec's decision D37; that the point before the first
transaction is a boundary too, and every point between two transactions, is the model's choice (log 25), and
so is the list the host's calls come from (log 3). -/
def Obligations.RunEndsAtFirstBoundary : Prop :=
  ∀ (e : RunEnd) (k : Nat) (p q : RunPoint),
    (runUntil e k p = .ended q ↔
      ∃ j, j ≤ k ∧ p.HasRun j q ∧ e.reached q = true ∧ p.NotEndedBefore e j) ∧
    (∀ n, (RunEnd.cycles n).reached q = true ↔ q.cycles = n) ∧
    (∀ a, (RunEnd.pcAt a).reached q = true ↔ q.state.pc = a)

/-- What is no ended run (R106, R110): one that is refused at a transaction before its end, one whose
transactions are used up, and one whose load failed, of an empty program or one of more than 3584 bytes. No
run stops on a fault, which is a next state by the model's reading (log 1). Rests on the spec's decisions
D11 to D13 and D37; that the point before the first transaction is a boundary too, and every point between
two transactions, so that a run refused or used up has reached its end at none of them, is the model's
choice (log 25), and so is the list the host's calls come from (log 3). -/
def Obligations.RefusedAndUnendedRuns : Prop :=
  ∀ (e : RunEnd) (k : Nat) (p q : RunPoint) (bytes : List Byte) (calls : List Call),
    (∀ r, runUntil e k p = .refused r q ↔
      ∃ j, j < k ∧ p.HasRun j q ∧ step q.state = .refused r ∧ p.NotEndedBefore e (j + 1)) ∧
    (runUntil e k p = .unended q ↔ p.HasRun k q ∧ p.NotEndedBefore e (k + 1)) ∧
    (∀ f, runUntil e k p ≠ .stopped f q) ∧
    ((∃ r, runProgram bytes calls e k = .notLoaded r) ↔ bytes = [] ∨ 3584 < bytes.length)
end

