-- ==== Sys2Proof/Laws/Decode.lean ====
section
/-! SUPPORT. Laws of the encoding: the fields of a word in each format, and the word rebuilt from its
fields (30_encoding.md R71, R72). -/

namespace Sys2Proof

/-! ### Slices of a concatenation -/

theorem extract_append_high {m n : Nat} (a : BitVec m) (b : BitVec n) : (a ++ b).extractLsb' n m = a := by
  apply BitVec.eq_of_getLsbD_eq
  intro k hk
  simp [BitVec.getLsbD_append, hk]

theorem extract_append_low {m n s l : Nat} (a : BitVec m) (b : BitVec n) (h : s + l ≤ n) :
    (a ++ b).extractLsb' s l = b.extractLsb' s l := by
  apply BitVec.eq_of_getLsbD_eq
  intro k hk
  have : s + k < n := by omega
  simp [BitVec.getLsbD_append, hk, this]

theorem extract_whole {n : Nat} (b : BitVec n) : b.extractLsb' 0 n = b := by
  apply BitVec.eq_of_getLsbD_eq
  intro k hk
  simp [hk]

/-! ### Nibbles -/

@[simp] theorem nibbleVal_nibble (k : Fin 16) : nibbleVal (nibble k) = k := by
  apply Fin.ext
  simp [nibbleVal, nibble]

@[simp] theorem nibbleVal_val (b : BitVec 4) : (nibbleVal b).val = b.toNat := rfl

@[simp] theorem nibble_nibbleVal (b : BitVec 4) : nibble (nibbleVal b) = b := by
  apply BitVec.eq_of_toNat_eq
  simp [nibbleVal, nibble]

/-! ### Fields of a format -/

@[simp] theorem fieldOp_formatNNN (op : BitVec 4) (nnn : Addr12) : fieldOp (formatNNN op nnn) = nibbleVal op :=
  congrArg nibbleVal (extract_append_high op nnn)

@[simp] theorem fieldNNN_formatNNN (op : BitVec 4) (nnn : Addr12) : fieldNNN (formatNNN op nnn) = nnn :=
  (extract_append_low op nnn (by decide)).trans (extract_whole nnn)

@[simp] theorem fieldOp_formatXNN (op : BitVec 4) (x : Reg) (nn : Byte) :
    fieldOp (formatXNN op x nn) = nibbleVal op :=
  congrArg nibbleVal (extract_append_high op _)

@[simp] theorem fieldX_formatXNN (op : BitVec 4) (x : Reg) (nn : Byte) : fieldX (formatXNN op x nn) = x := by
  have h : (formatXNN op x nn).extractLsb' 8 4 = nibble x :=
    (extract_append_low op (nibble x ++ nn) (by decide)).trans (extract_append_high (nibble x) nn)
  rw [fieldX, h, nibbleVal_nibble]

@[simp] theorem fieldNN_formatXNN (op : BitVec 4) (x : Reg) (nn : Byte) : fieldNN (formatXNN op x nn) = nn :=
  ((extract_append_low op (nibble x ++ nn) (by decide)).trans
    (extract_append_low (nibble x) nn (by decide))).trans (extract_whole nn)

@[simp] theorem fieldOp_formatXYN (op : BitVec 4) (x y : Reg) (n : BitVec 4) :
    fieldOp (formatXYN op x y n) = nibbleVal op :=
  congrArg nibbleVal (extract_append_high op _)

@[simp] theorem fieldX_formatXYN (op : BitVec 4) (x y : Reg) (n : BitVec 4) :
    fieldX (formatXYN op x y n) = x := by
  have h : (formatXYN op x y n).extractLsb' 8 4 = nibble x :=
    (extract_append_low op (nibble x ++ (nibble y ++ n)) (by decide)).trans
      (extract_append_high (nibble x) (nibble y ++ n))
  rw [fieldX, h, nibbleVal_nibble]

@[simp] theorem fieldY_formatXYN (op : BitVec 4) (x y : Reg) (n : BitVec 4) :
    fieldY (formatXYN op x y n) = y := by
  have h : (formatXYN op x y n).extractLsb' 4 4 = nibble y :=
    ((extract_append_low op (nibble x ++ (nibble y ++ n)) (by decide)).trans
      (extract_append_low (nibble x) (nibble y ++ n) (by decide))).trans (extract_append_high (nibble y) n)
  rw [fieldY, h, nibbleVal_nibble]

@[simp] theorem fieldN_formatXYN (op : BitVec 4) (x y : Reg) (n : BitVec 4) :
    fieldN (formatXYN op x y n) = nibbleVal n := by
  have h : (formatXYN op x y n).extractLsb' 0 4 = n :=
    ((extract_append_low op (nibble x ++ (nibble y ++ n)) (by decide)).trans
      ((extract_append_low (nibble x) (nibble y ++ n) (by decide)).trans
        (extract_append_low (nibble y) n (by decide)))).trans (extract_whole n)
  rw [fieldN, h]

/-! ### The word from its fields -/

/-- A word of 4 + n bits is its top four bits before the rest. -/
theorem append_slices {m n : Nat} (w : BitVec (m + n)) :
    w.extractLsb' n m ++ w.extractLsb' 0 n = w := by
  simp

theorem formatNNN_fields (w : Word) : formatNNN (nibble (fieldOp w)) (fieldNNN w) = w := by
  rw [fieldOp, nibble_nibbleVal]
  exact append_slices (m := 4) (n := 12) w

theorem formatXNN_fields (w : Word) : formatXNN (nibble (fieldOp w)) (fieldX w) (fieldNN w) = w := by
  have h : nibble (fieldX w) ++ fieldNN w = fieldNNN w := by
    have := append_slices (m := 4) (n := 8) (fieldNNN w)
    rw [fieldX, nibble_nibbleVal]
    have h1 : (fieldNNN w).extractLsb' 8 4 = w.extractLsb' 8 4 := by
      apply BitVec.eq_of_getLsbD_eq; intro k hk; simp [fieldNNN, hk]
    have h2 : (fieldNNN w).extractLsb' 0 8 = fieldNN w := by
      apply BitVec.eq_of_getLsbD_eq; intro k hk; simp [fieldNNN, fieldNN, hk]
    rwa [h1, h2] at this
  rw [formatXNN, h]
  exact formatNNN_fields w

theorem formatXYN_fields (w : Word) :
    formatXYN (nibble (fieldOp w)) (fieldX w) (fieldY w) (nibble (fieldN w)) = w := by
  have h : nibble (fieldY w) ++ nibble (fieldN w) = fieldNN w := by
    have := append_slices (m := 4) (n := 4) (fieldNN w)
    rw [fieldY, fieldN, nibble_nibbleVal, nibble_nibbleVal]
    have h1 : (fieldNN w).extractLsb' 4 4 = w.extractLsb' 4 4 := by
      apply BitVec.eq_of_getLsbD_eq; intro k hk; simp [fieldNN, hk]
    have h2 : (fieldNN w).extractLsb' 0 4 = w.extractLsb' 0 4 := by
      apply BitVec.eq_of_getLsbD_eq; intro k hk; simp [fieldNN, hk]
    rwa [h1, h2] at this
  rw [formatXYN, h]
  exact formatXNN_fields w

/-- The word assembled from a word's two bytes is the word (20_memory.md R52). -/
@[simp] theorem wordOfBytes_bytes (w : Word) : wordOfBytes (highByte w) (lowByte w) = w :=
  append_slices (m := 8) (n := 8) w

/-- A big-endian word as a number: high byte times 256 plus low byte (20_memory.md R52). -/
theorem wordOfBytes_toNat (hi lo : Byte) : (wordOfBytes hi lo).toNat = hi.toNat * 256 + lo.toNat := by
  unfold wordOfBytes
  rw [BitVec.toNat_append, ← Nat.shiftLeft_add_eq_or_of_lt lo.isLt, Nat.shiftLeft_eq]

end Sys2Proof
end

