-- ==== Sys2Proof/Laws/Memory.lean ====
section
/-! SUPPORT. Laws of memory: what a read gives after each operation, and that every operation keeps
the canonical form. -/

namespace Sys2Proof.Machine

/-! ### Reads -/

theorem Memory.read_nil (a : Nat) : Memory.read [] a = Memory.initial a := rfl

theorem Memory.read_cons (c : Nat) (b : Byte) (m : Memory) (a : Nat) :
    Memory.read ((c, b) :: m) a = if a = c then b else Memory.read m a := rfl

theorem Memory.read_erase (m : Memory) (a x : Nat) :
    (m.erase a).read x = if x = a then Memory.initial a else m.read x := by
  induction m with
  | nil => simp [Memory.erase, Memory.read]; rintro rfl; rfl
  | cons c m ih =>
    obtain ⟨c, v⟩ := c
    have step : Memory.erase a ((c, v) :: m) =
        if c = a then Memory.erase a m else (c, v) :: Memory.erase a m := by
      by_cases h : c = a <;> simp [Memory.erase, h]
    rw [step]
    by_cases hc : c = a
    · rw [if_pos hc, ih]
      by_cases hx : x = a <;> simp [hx, Memory.read, hc]
    · rw [if_neg hc, Memory.read_cons, ih, Memory.read_cons]
      by_cases hx : x = c
      · subst hx; simp [hc]
      · simp [hx]

theorem Memory.not_mem_erase (m : Memory) (a : Nat) : ∀ c ∈ m.erase a, c.1 ≠ a := by
  intro c hc
  simpa [Memory.erase] using (List.mem_filter.mp hc).2

theorem Memory.read_insert (a : Nat) (b : Byte) (m : Memory) (hm : ∀ c ∈ m, c.1 ≠ a) (x : Nat) :
    (Memory.insert a b m).read x = if x = a then b else m.read x := by
  induction m with
  | nil => rfl
  | cons c m ih =>
    obtain ⟨c, v⟩ := c
    have hca : c ≠ a := hm (c, v) List.mem_cons_self
    have hm' : ∀ c ∈ m, c.1 ≠ a := fun d hd => hm d (List.mem_cons_of_mem _ hd)
    unfold Memory.insert
    by_cases h : a < c
    · rw [if_pos h]; rfl
    · rw [if_neg h, Memory.read_cons, Memory.read_cons, ih hm']
      by_cases hx : x = c
      · subst hx; simp [hca]
      · simp [hx]

/-- A read after a write, at any two addresses (20_memory.md R61). -/
theorem Memory.read_write (m : Memory) (a : Nat) (b : Byte) (x : Nat) :
    (m.write a b).read x = if a < Config.memSize ∧ x = a then b else m.read x := by
  unfold Memory.write
  by_cases ha : a < Config.memSize
  · rw [if_pos ha]
    by_cases hb : b = Memory.initial a
    · rw [if_pos hb, Memory.read_erase]
      by_cases hx : x = a <;> simp [ha, hx, hb]
    · rw [if_neg hb, Memory.read_insert a b _ (m.not_mem_erase a), Memory.read_erase]
      by_cases hx : x = a <;> simp [ha, hx]
  · rw [if_neg ha]; simp [ha]

/-- A read after a run of byte writes (20_memory.md R61). -/
theorem Memory.read_writeBytes (bs : List Byte) : ∀ (m : Memory) (a x : Nat), a + bs.length ≤ Config.memSize →
    (m.writeBytes a bs).read x =
      if h : a ≤ x ∧ x < a + bs.length then bs[x - a]'(by omega) else m.read x := by
  induction bs with
  | nil =>
    intro m a x _
    rw [dif_neg fun h => by have h2 : x < a := h.2; omega]
    rfl
  | cons b bs ih =>
    intro m a x hfit
    simp only [List.length_cons] at hfit
    have ha : a < Config.memSize := by omega
    rw [Memory.writeBytes, ih (m.write a b) (a + 1) x (by omega), Memory.read_write]
    by_cases hx : a + 1 ≤ x ∧ x < a + 1 + bs.length
    · have hx' : a ≤ x ∧ x < a + (b :: bs).length := by simp only [List.length_cons]; omega
      rw [dif_pos hx, dif_pos hx']
      have : x - a = (x - (a + 1)) + 1 := by omega
      simp [this]
    · rw [dif_neg hx]
      by_cases hxa : x = a
      · subst hxa
        have hx' : x ≤ x ∧ x < x + (b :: bs).length := by simp only [List.length_cons]; omega
        rw [dif_pos hx', if_pos ⟨ha, rfl⟩]
        simp
      · have hx' : ¬ (a ≤ x ∧ x < a + (b :: bs).length) := by simp only [List.length_cons]; omega
        rw [dif_neg hx', if_neg (fun h => hxa h.2)]

/-- A run of byte writes leaves every other address alone. -/
theorem Memory.read_writeBytes_other (bs : List Byte) : ∀ (m : Memory) (a x : Nat),
    (x < a ∨ a + bs.length ≤ x) → (m.writeBytes a bs).read x = m.read x := by
  induction bs with
  | nil => intro m a x _; rfl
  | cons b bs ih =>
    intro m a x hx
    simp only [List.length_cons] at hx
    rw [Memory.writeBytes, ih _ _ _ (by omega), Memory.read_write, if_neg (by omega)]

@[simp] theorem Memory.length_readBytes (m : Memory) (a n : Nat) : (m.readBytes a n).length = n := by
  simp [Memory.readBytes]

@[simp] theorem Memory.getElem_readBytes (m : Memory) (a n r : Nat) (h : r < (m.readBytes a n).length) :
    (m.readBytes a n)[r] = m.read (a + r) := by
  simp [Memory.readBytes]

/-! ### The canonical form -/

theorem Memory.wfFrom_cons (lo a : Nat) (b : Byte) (m : Memory) :
    Memory.wfFrom lo ((a, b) :: m) = true ↔
      lo ≤ a ∧ a < Config.memSize ∧ b ≠ Memory.initial a ∧ Memory.wfFrom (a + 1) m = true := by
  simp [Memory.wfFrom, and_assoc]

theorem Memory.wfFrom_mono (m : Memory) : ∀ (lo lo' : Nat), lo' ≤ lo → Memory.wfFrom lo m = true →
    Memory.wfFrom lo' m = true := by
  cases m with
  | nil => intros; rfl
  | cons c m =>
    obtain ⟨a, b⟩ := c
    intro lo lo' hle h
    rw [Memory.wfFrom_cons] at h ⊢
    exact ⟨Nat.le_trans hle h.1, h.2⟩

theorem Memory.wfFrom_erase (a : Nat) (m : Memory) : ∀ lo, Memory.wfFrom lo m = true →
    Memory.wfFrom lo (m.erase a) = true := by
  induction m with
  | nil => intro lo _; rfl
  | cons c m ih =>
    obtain ⟨c, v⟩ := c
    intro lo h
    rw [Memory.wfFrom_cons] at h
    have step : Memory.erase a ((c, v) :: m) =
        if c = a then Memory.erase a m else (c, v) :: Memory.erase a m := by
      by_cases h : c = a <;> simp [Memory.erase, h]
    rw [step]
    split
    · exact Memory.wfFrom_mono _ (c + 1) lo (by omega) (ih _ h.2.2.2)
    · rw [Memory.wfFrom_cons]; exact ⟨h.1, h.2.1, h.2.2.1, ih _ h.2.2.2⟩

theorem Memory.wfFrom_insert (a : Nat) (b : Byte) (ha : a < Config.memSize) (hb : b ≠ Memory.initial a)
    (m : Memory) (hm : ∀ c ∈ m, c.1 ≠ a) : ∀ lo, lo ≤ a → Memory.wfFrom lo m = true →
    Memory.wfFrom lo (Memory.insert a b m) = true := by
  induction m with
  | nil => intro lo hlo _; rw [Memory.insert, Memory.wfFrom_cons]; exact ⟨hlo, ha, hb, rfl⟩
  | cons c m ih =>
    obtain ⟨c, v⟩ := c
    intro lo hlo h
    have hca : c ≠ a := hm (c, v) List.mem_cons_self
    rw [Memory.wfFrom_cons] at h
    unfold Memory.insert
    by_cases hac : a < c
    · rw [if_pos hac, Memory.wfFrom_cons, Memory.wfFrom_cons]
      exact ⟨hlo, ha, hb, hac, h.2⟩
    · rw [if_neg hac, Memory.wfFrom_cons]
      exact ⟨h.1, h.2.1, h.2.2.1,
        ih (fun d hd => hm d (List.mem_cons_of_mem _ hd)) _ (by omega) h.2.2.2⟩

theorem Memory.wf_nil : Memory.wf [] = true := rfl

/-- A write keeps the canonical form. -/
theorem Memory.wf_write (m : Memory) (a : Nat) (b : Byte) (h : m.wf = true) : (m.write a b).wf = true := by
  unfold Memory.write
  split
  next ha =>
    split
    · exact Memory.wfFrom_erase a m 0 h
    next hb =>
      exact Memory.wfFrom_insert a b ha hb _ (m.not_mem_erase a) 0 (Nat.zero_le _) (Memory.wfFrom_erase a m 0 h)
  · exact h

/-- A run of byte writes keeps the canonical form. -/
theorem Memory.wf_writeBytes (bs : List Byte) : ∀ (m : Memory) (a : Nat), m.wf = true →
    (m.writeBytes a bs).wf = true := by
  induction bs with
  | nil => intro m a h; exact h
  | cons b bs ih => intro m a h; exact ih _ _ (Memory.wf_write m a b h)

end Sys2Proof.Machine
end

