-- ==== Sys2Proof/Laws/State.lean ====
section
/-! SUPPORT. One lemma per field per state update, tagged for simp, so that no proof unfolds a record
update; then what a register and a key read as after each update. -/

namespace Sys2Proof.Machine

variable (s : State)

/-! ### setReg -/

@[simp] theorem State.setReg_v (r : Reg) (b : Byte) : (s.setReg r b).v = s.v.set r.val b := rfl
@[simp] theorem State.setReg_i (r : Reg) (b : Byte) : (s.setReg r b).i = s.i := rfl
@[simp] theorem State.setReg_pc (r : Reg) (b : Byte) : (s.setReg r b).pc = s.pc := rfl
@[simp] theorem State.setReg_stack (r : Reg) (b : Byte) : (s.setReg r b).stack = s.stack := rfl
@[simp] theorem State.setReg_mem (r : Reg) (b : Byte) : (s.setReg r b).mem = s.mem := rfl
@[simp] theorem State.setReg_d (r : Reg) (b : Byte) : (s.setReg r b).d = s.d := rfl
@[simp] theorem State.setReg_k (r : Reg) (b : Byte) : (s.setReg r b).k = s.k := rfl
@[simp] theorem State.setReg_cap (r : Reg) (b : Byte) : (s.setReg r b).cap = s.cap := rfl
@[simp] theorem State.setReg_dtArmed (r : Reg) (b : Byte) : (s.setReg r b).dtArmed = s.dtArmed := rfl
@[simp] theorem State.setReg_dtCount (r : Reg) (b : Byte) : (s.setReg r b).dtCount = s.dtCount := rfl
@[simp] theorem State.setReg_dtStamp (r : Reg) (b : Byte) : (s.setReg r b).dtStamp = s.dtStamp := rfl
@[simp] theorem State.setReg_status (r : Reg) (b : Byte) : (s.setReg r b).status = s.status := rfl
@[simp] theorem State.setReg_events (r : Reg) (b : Byte) : (s.setReg r b).events = s.events := rfl
@[simp] theorem State.setReg_reply (r : Reg) (b : Byte) : (s.setReg r b).reply = s.reply := rfl
@[simp] theorem State.setReg_inp (r : Reg) (b : Byte) : (s.setReg r b).inp = s.inp := rfl
@[simp] theorem State.setReg_calls (r : Reg) (b : Byte) : (s.setReg r b).calls = s.calls := rfl
@[simp] theorem State.setReg_draws (r : Reg) (b : Byte) : (s.setReg r b).draws = s.draws := rfl

/-! ### setI -/

@[simp] theorem State.setI_v (a : Word) : (s.setI a).v = s.v := rfl
@[simp] theorem State.setI_i (a : Word) : (s.setI a).i = a := rfl
@[simp] theorem State.setI_pc (a : Word) : (s.setI a).pc = s.pc := rfl
@[simp] theorem State.setI_stack (a : Word) : (s.setI a).stack = s.stack := rfl
@[simp] theorem State.setI_mem (a : Word) : (s.setI a).mem = s.mem := rfl
@[simp] theorem State.setI_d (a : Word) : (s.setI a).d = s.d := rfl
@[simp] theorem State.setI_k (a : Word) : (s.setI a).k = s.k := rfl
@[simp] theorem State.setI_cap (a : Word) : (s.setI a).cap = s.cap := rfl
@[simp] theorem State.setI_dtArmed (a : Word) : (s.setI a).dtArmed = s.dtArmed := rfl
@[simp] theorem State.setI_dtCount (a : Word) : (s.setI a).dtCount = s.dtCount := rfl
@[simp] theorem State.setI_dtStamp (a : Word) : (s.setI a).dtStamp = s.dtStamp := rfl
@[simp] theorem State.setI_status (a : Word) : (s.setI a).status = s.status := rfl
@[simp] theorem State.setI_events (a : Word) : (s.setI a).events = s.events := rfl
@[simp] theorem State.setI_reply (a : Word) : (s.setI a).reply = s.reply := rfl
@[simp] theorem State.setI_inp (a : Word) : (s.setI a).inp = s.inp := rfl
@[simp] theorem State.setI_calls (a : Word) : (s.setI a).calls = s.calls := rfl
@[simp] theorem State.setI_draws (a : Word) : (s.setI a).draws = s.draws := rfl

/-! ### setMem -/

@[simp] theorem State.setMem_v (m : Memory) : (s.setMem m).v = s.v := rfl
@[simp] theorem State.setMem_i (m : Memory) : (s.setMem m).i = s.i := rfl
@[simp] theorem State.setMem_pc (m : Memory) : (s.setMem m).pc = s.pc := rfl
@[simp] theorem State.setMem_stack (m : Memory) : (s.setMem m).stack = s.stack := rfl
@[simp] theorem State.setMem_mem (m : Memory) : (s.setMem m).mem = m := rfl
@[simp] theorem State.setMem_d (m : Memory) : (s.setMem m).d = s.d := rfl
@[simp] theorem State.setMem_k (m : Memory) : (s.setMem m).k = s.k := rfl
@[simp] theorem State.setMem_cap (m : Memory) : (s.setMem m).cap = s.cap := rfl
@[simp] theorem State.setMem_dtArmed (m : Memory) : (s.setMem m).dtArmed = s.dtArmed := rfl
@[simp] theorem State.setMem_dtCount (m : Memory) : (s.setMem m).dtCount = s.dtCount := rfl
@[simp] theorem State.setMem_dtStamp (m : Memory) : (s.setMem m).dtStamp = s.dtStamp := rfl
@[simp] theorem State.setMem_status (m : Memory) : (s.setMem m).status = s.status := rfl
@[simp] theorem State.setMem_events (m : Memory) : (s.setMem m).events = s.events := rfl
@[simp] theorem State.setMem_reply (m : Memory) : (s.setMem m).reply = s.reply := rfl
@[simp] theorem State.setMem_inp (m : Memory) : (s.setMem m).inp = s.inp := rfl
@[simp] theorem State.setMem_calls (m : Memory) : (s.setMem m).calls = s.calls := rfl
@[simp] theorem State.setMem_draws (m : Memory) : (s.setMem m).draws = s.draws := rfl

/-! ### jump -/

@[simp] theorem State.jump_v (a : Word) : (s.jump a).v = s.v := rfl
@[simp] theorem State.jump_i (a : Word) : (s.jump a).i = s.i := rfl
@[simp] theorem State.jump_pc (a : Word) : (s.jump a).pc = a := rfl
@[simp] theorem State.jump_stack (a : Word) : (s.jump a).stack = s.stack := rfl
@[simp] theorem State.jump_mem (a : Word) : (s.jump a).mem = s.mem := rfl
@[simp] theorem State.jump_d (a : Word) : (s.jump a).d = s.d := rfl
@[simp] theorem State.jump_k (a : Word) : (s.jump a).k = s.k := rfl
@[simp] theorem State.jump_cap (a : Word) : (s.jump a).cap = s.cap := rfl
@[simp] theorem State.jump_dtArmed (a : Word) : (s.jump a).dtArmed = s.dtArmed := rfl
@[simp] theorem State.jump_dtCount (a : Word) : (s.jump a).dtCount = s.dtCount := rfl
@[simp] theorem State.jump_dtStamp (a : Word) : (s.jump a).dtStamp = s.dtStamp := rfl
@[simp] theorem State.jump_status (a : Word) : (s.jump a).status = s.status := rfl
@[simp] theorem State.jump_events (a : Word) : (s.jump a).events = s.events := rfl
@[simp] theorem State.jump_reply (a : Word) : (s.jump a).reply = s.reply := rfl
@[simp] theorem State.jump_inp (a : Word) : (s.jump a).inp = s.inp := rfl
@[simp] theorem State.jump_calls (a : Word) : (s.jump a).calls = s.calls := rfl
@[simp] theorem State.jump_draws (a : Word) : (s.jump a).draws = s.draws := rfl

/-! ### advance -/

@[simp] theorem State.advance_v : s.advance.v = s.v := rfl
@[simp] theorem State.advance_i : s.advance.i = s.i := rfl
@[simp] theorem State.advance_pc : s.advance.pc = BitVec.ofNat 16 (s.pc.toNat + 2) := rfl
@[simp] theorem State.advance_stack : s.advance.stack = s.stack := rfl
@[simp] theorem State.advance_mem : s.advance.mem = s.mem := rfl
@[simp] theorem State.advance_d : s.advance.d = s.d := rfl
@[simp] theorem State.advance_k : s.advance.k = s.k := rfl
@[simp] theorem State.advance_cap : s.advance.cap = s.cap := rfl
@[simp] theorem State.advance_dtArmed : s.advance.dtArmed = s.dtArmed := rfl
@[simp] theorem State.advance_dtCount : s.advance.dtCount = s.dtCount := rfl
@[simp] theorem State.advance_dtStamp : s.advance.dtStamp = s.dtStamp := rfl
@[simp] theorem State.advance_status : s.advance.status = s.status := rfl
@[simp] theorem State.advance_events : s.advance.events = s.events := rfl
@[simp] theorem State.advance_reply : s.advance.reply = s.reply := rfl
@[simp] theorem State.advance_inp : s.advance.inp = s.inp := rfl
@[simp] theorem State.advance_calls : s.advance.calls = s.calls := rfl
@[simp] theorem State.advance_draws : s.advance.draws = s.draws := rfl

/-! ### skip -/

@[simp] theorem State.skip_v : s.skip.v = s.v := rfl
@[simp] theorem State.skip_i : s.skip.i = s.i := rfl
@[simp] theorem State.skip_pc : s.skip.pc = BitVec.ofNat 16 (s.pc.toNat + 4) := rfl
@[simp] theorem State.skip_stack : s.skip.stack = s.stack := rfl
@[simp] theorem State.skip_mem : s.skip.mem = s.mem := rfl
@[simp] theorem State.skip_d : s.skip.d = s.d := rfl
@[simp] theorem State.skip_k : s.skip.k = s.k := rfl
@[simp] theorem State.skip_cap : s.skip.cap = s.cap := rfl
@[simp] theorem State.skip_dtArmed : s.skip.dtArmed = s.dtArmed := rfl
@[simp] theorem State.skip_dtCount : s.skip.dtCount = s.dtCount := rfl
@[simp] theorem State.skip_dtStamp : s.skip.dtStamp = s.dtStamp := rfl
@[simp] theorem State.skip_status : s.skip.status = s.status := rfl
@[simp] theorem State.skip_events : s.skip.events = s.events := rfl
@[simp] theorem State.skip_reply : s.skip.reply = s.reply := rfl
@[simp] theorem State.skip_inp : s.skip.inp = s.inp := rfl
@[simp] theorem State.skip_calls : s.skip.calls = s.calls := rfl
@[simp] theorem State.skip_draws : s.skip.draws = s.draws := rfl

/-! ### skipIf -/

@[simp] theorem State.skipIf_v (c : Bool) : (s.skipIf c).v = s.v := by cases c <;> rfl
@[simp] theorem State.skipIf_i (c : Bool) : (s.skipIf c).i = s.i := by cases c <;> rfl
@[simp] theorem State.skipIf_pc (c : Bool) : (s.skipIf c).pc = BitVec.ofNat 16 (s.pc.toNat + if c then 4 else 2) :=
    by cases c <;> rfl
@[simp] theorem State.skipIf_stack (c : Bool) : (s.skipIf c).stack = s.stack := by cases c <;> rfl
@[simp] theorem State.skipIf_mem (c : Bool) : (s.skipIf c).mem = s.mem := by cases c <;> rfl
@[simp] theorem State.skipIf_d (c : Bool) : (s.skipIf c).d = s.d := by cases c <;> rfl
@[simp] theorem State.skipIf_k (c : Bool) : (s.skipIf c).k = s.k := by cases c <;> rfl
@[simp] theorem State.skipIf_cap (c : Bool) : (s.skipIf c).cap = s.cap := by cases c <;> rfl
@[simp] theorem State.skipIf_dtArmed (c : Bool) : (s.skipIf c).dtArmed = s.dtArmed := by cases c <;> rfl
@[simp] theorem State.skipIf_dtCount (c : Bool) : (s.skipIf c).dtCount = s.dtCount := by cases c <;> rfl
@[simp] theorem State.skipIf_dtStamp (c : Bool) : (s.skipIf c).dtStamp = s.dtStamp := by cases c <;> rfl
@[simp] theorem State.skipIf_status (c : Bool) : (s.skipIf c).status = s.status := by cases c <;> rfl
@[simp] theorem State.skipIf_events (c : Bool) : (s.skipIf c).events = s.events := by cases c <;> rfl
@[simp] theorem State.skipIf_reply (c : Bool) : (s.skipIf c).reply = s.reply := by cases c <;> rfl
@[simp] theorem State.skipIf_inp (c : Bool) : (s.skipIf c).inp = s.inp := by cases c <;> rfl
@[simp] theorem State.skipIf_calls (c : Bool) : (s.skipIf c).calls = s.calls := by cases c <;> rfl
@[simp] theorem State.skipIf_draws (c : Bool) : (s.skipIf c).draws = s.draws := by cases c <;> rfl

/-! ### push -/

@[simp] theorem State.push_v (a : Word) : (s.push a).v = s.v := rfl
@[simp] theorem State.push_i (a : Word) : (s.push a).i = s.i := rfl
@[simp] theorem State.push_pc (a : Word) : (s.push a).pc = s.pc := rfl
@[simp] theorem State.push_stack (a : Word) : (s.push a).stack = a :: s.stack := rfl
@[simp] theorem State.push_mem (a : Word) : (s.push a).mem = s.mem := rfl
@[simp] theorem State.push_d (a : Word) : (s.push a).d = s.d := rfl
@[simp] theorem State.push_k (a : Word) : (s.push a).k = s.k := rfl
@[simp] theorem State.push_cap (a : Word) : (s.push a).cap = s.cap := rfl
@[simp] theorem State.push_dtArmed (a : Word) : (s.push a).dtArmed = s.dtArmed := rfl
@[simp] theorem State.push_dtCount (a : Word) : (s.push a).dtCount = s.dtCount := rfl
@[simp] theorem State.push_dtStamp (a : Word) : (s.push a).dtStamp = s.dtStamp := rfl
@[simp] theorem State.push_status (a : Word) : (s.push a).status = s.status := rfl
@[simp] theorem State.push_events (a : Word) : (s.push a).events = s.events := rfl
@[simp] theorem State.push_reply (a : Word) : (s.push a).reply = s.reply := rfl
@[simp] theorem State.push_inp (a : Word) : (s.push a).inp = s.inp := rfl
@[simp] theorem State.push_calls (a : Word) : (s.push a).calls = s.calls := rfl
@[simp] theorem State.push_draws (a : Word) : (s.push a).draws = s.draws := rfl

/-! ### emit -/

@[simp] theorem State.emit_v (e : Event) : (s.emit e).v = s.v := rfl
@[simp] theorem State.emit_i (e : Event) : (s.emit e).i = s.i := rfl
@[simp] theorem State.emit_pc (e : Event) : (s.emit e).pc = s.pc := rfl
@[simp] theorem State.emit_stack (e : Event) : (s.emit e).stack = s.stack := rfl
@[simp] theorem State.emit_mem (e : Event) : (s.emit e).mem = s.mem := rfl
@[simp] theorem State.emit_d (e : Event) : (s.emit e).d = s.d := rfl
@[simp] theorem State.emit_k (e : Event) : (s.emit e).k = s.k := rfl
@[simp] theorem State.emit_cap (e : Event) : (s.emit e).cap = s.cap := rfl
@[simp] theorem State.emit_dtArmed (e : Event) : (s.emit e).dtArmed = s.dtArmed := rfl
@[simp] theorem State.emit_dtCount (e : Event) : (s.emit e).dtCount = s.dtCount := rfl
@[simp] theorem State.emit_dtStamp (e : Event) : (s.emit e).dtStamp = s.dtStamp := rfl
@[simp] theorem State.emit_status (e : Event) : (s.emit e).status = s.status := rfl
@[simp] theorem State.emit_events (e : Event) : (s.emit e).events = s.events ++ [e] := rfl
@[simp] theorem State.emit_reply (e : Event) : (s.emit e).reply = s.reply := rfl
@[simp] theorem State.emit_inp (e : Event) : (s.emit e).inp = s.inp := rfl
@[simp] theorem State.emit_calls (e : Event) : (s.emit e).calls = s.calls := rfl
@[simp] theorem State.emit_draws (e : Event) : (s.emit e).draws = s.draws := rfl

/-! ### faulted -/

@[simp] theorem State.faulted_v (f : Fault) : (s.faulted f).v = s.v := rfl
@[simp] theorem State.faulted_i (f : Fault) : (s.faulted f).i = s.i := rfl
@[simp] theorem State.faulted_pc (f : Fault) : (s.faulted f).pc = s.pc := rfl
@[simp] theorem State.faulted_stack (f : Fault) : (s.faulted f).stack = s.stack := rfl
@[simp] theorem State.faulted_mem (f : Fault) : (s.faulted f).mem = s.mem := rfl
@[simp] theorem State.faulted_d (f : Fault) : (s.faulted f).d = s.d := rfl
@[simp] theorem State.faulted_k (f : Fault) : (s.faulted f).k = s.k := rfl
@[simp] theorem State.faulted_cap (f : Fault) : (s.faulted f).cap = s.cap := rfl
@[simp] theorem State.faulted_dtArmed (f : Fault) : (s.faulted f).dtArmed = s.dtArmed := rfl
@[simp] theorem State.faulted_dtCount (f : Fault) : (s.faulted f).dtCount = s.dtCount := rfl
@[simp] theorem State.faulted_dtStamp (f : Fault) : (s.faulted f).dtStamp = s.dtStamp := rfl
@[simp] theorem State.faulted_status (f : Fault) : (s.faulted f).status = .faulted f := rfl
@[simp] theorem State.faulted_events (f : Fault) : (s.faulted f).events = s.events := rfl
@[simp] theorem State.faulted_reply (f : Fault) : (s.faulted f).reply = .fault f := rfl
@[simp] theorem State.faulted_inp (f : Fault) : (s.faulted f).inp = s.inp := rfl
@[simp] theorem State.faulted_calls (f : Fault) : (s.faulted f).calls = s.calls := rfl
@[simp] theorem State.faulted_draws (f : Fault) : (s.faulted f).draws = s.draws := rfl

/-! ### setFlag -/

@[simp] theorem State.setFlag_v (c : Bool) : (s.setFlag c).v = s.v.set 15 (flagByte c) := rfl
@[simp] theorem State.setFlag_i (c : Bool) : (s.setFlag c).i = s.i := rfl
@[simp] theorem State.setFlag_pc (c : Bool) : (s.setFlag c).pc = s.pc := rfl
@[simp] theorem State.setFlag_stack (c : Bool) : (s.setFlag c).stack = s.stack := rfl
@[simp] theorem State.setFlag_mem (c : Bool) : (s.setFlag c).mem = s.mem := rfl
@[simp] theorem State.setFlag_d (c : Bool) : (s.setFlag c).d = s.d := rfl
@[simp] theorem State.setFlag_k (c : Bool) : (s.setFlag c).k = s.k := rfl
@[simp] theorem State.setFlag_cap (c : Bool) : (s.setFlag c).cap = s.cap := rfl
@[simp] theorem State.setFlag_dtArmed (c : Bool) : (s.setFlag c).dtArmed = s.dtArmed := rfl
@[simp] theorem State.setFlag_dtCount (c : Bool) : (s.setFlag c).dtCount = s.dtCount := rfl
@[simp] theorem State.setFlag_dtStamp (c : Bool) : (s.setFlag c).dtStamp = s.dtStamp := rfl
@[simp] theorem State.setFlag_status (c : Bool) : (s.setFlag c).status = s.status := rfl
@[simp] theorem State.setFlag_events (c : Bool) : (s.setFlag c).events = s.events := rfl
@[simp] theorem State.setFlag_reply (c : Bool) : (s.setFlag c).reply = s.reply := rfl
@[simp] theorem State.setFlag_inp (c : Bool) : (s.setFlag c).inp = s.inp := rfl
@[simp] theorem State.setFlag_calls (c : Bool) : (s.setFlag c).calls = s.calls := rfl
@[simp] theorem State.setFlag_draws (c : Bool) : (s.setFlag c).draws = s.draws := rfl

/-! ### writeFlagLast -/

@[simp] theorem State.writeFlagLast_v (r : Reg) (b : Byte) (c : Bool) : (s.writeFlagLast r b c).v = (s.v.set r.val b).set 15 (flagByte c) :=
    rfl
@[simp] theorem State.writeFlagLast_i (r : Reg) (b : Byte) (c : Bool) : (s.writeFlagLast r b c).i = s.i := rfl
@[simp] theorem State.writeFlagLast_pc (r : Reg) (b : Byte) (c : Bool) : (s.writeFlagLast r b c).pc = s.pc :=
    rfl
@[simp] theorem State.writeFlagLast_stack (r : Reg) (b : Byte) (c : Bool) : (s.writeFlagLast r b c).stack = s.stack :=
    rfl
@[simp] theorem State.writeFlagLast_mem (r : Reg) (b : Byte) (c : Bool) : (s.writeFlagLast r b c).mem = s.mem :=
    rfl
@[simp] theorem State.writeFlagLast_d (r : Reg) (b : Byte) (c : Bool) : (s.writeFlagLast r b c).d = s.d := rfl
@[simp] theorem State.writeFlagLast_k (r : Reg) (b : Byte) (c : Bool) : (s.writeFlagLast r b c).k = s.k := rfl
@[simp] theorem State.writeFlagLast_cap (r : Reg) (b : Byte) (c : Bool) : (s.writeFlagLast r b c).cap = s.cap :=
    rfl
@[simp] theorem State.writeFlagLast_dtArmed (r : Reg) (b : Byte) (c : Bool) : (s.writeFlagLast r b c).dtArmed = s.dtArmed :=
    rfl
@[simp] theorem State.writeFlagLast_dtCount (r : Reg) (b : Byte) (c : Bool) : (s.writeFlagLast r b c).dtCount = s.dtCount :=
    rfl
@[simp] theorem State.writeFlagLast_dtStamp (r : Reg) (b : Byte) (c : Bool) : (s.writeFlagLast r b c).dtStamp = s.dtStamp :=
    rfl
@[simp] theorem State.writeFlagLast_status (r : Reg) (b : Byte) (c : Bool) : (s.writeFlagLast r b c).status = s.status :=
    rfl
@[simp] theorem State.writeFlagLast_events (r : Reg) (b : Byte) (c : Bool) : (s.writeFlagLast r b c).events = s.events :=
    rfl
@[simp] theorem State.writeFlagLast_reply (r : Reg) (b : Byte) (c : Bool) : (s.writeFlagLast r b c).reply = s.reply :=
    rfl
@[simp] theorem State.writeFlagLast_inp (r : Reg) (b : Byte) (c : Bool) : (s.writeFlagLast r b c).inp = s.inp :=
    rfl
@[simp] theorem State.writeFlagLast_calls (r : Reg) (b : Byte) (c : Bool) : (s.writeFlagLast r b c).calls = s.calls :=
    rfl
@[simp] theorem State.writeFlagLast_draws (r : Reg) (b : Byte) (c : Bool) : (s.writeFlagLast r b c).draws = s.draws :=
    rfl

/-! ### setKey -/

@[simp] theorem State.setKey_v (k : Key) (b : Bool) : (s.setKey k b).v = s.v := rfl
@[simp] theorem State.setKey_i (k : Key) (b : Bool) : (s.setKey k b).i = s.i := rfl
@[simp] theorem State.setKey_pc (k : Key) (b : Bool) : (s.setKey k b).pc = s.pc := rfl
@[simp] theorem State.setKey_stack (k : Key) (b : Bool) : (s.setKey k b).stack = s.stack := rfl
@[simp] theorem State.setKey_mem (k : Key) (b : Bool) : (s.setKey k b).mem = s.mem := rfl
@[simp] theorem State.setKey_d (k : Key) (b : Bool) : (s.setKey k b).d = s.d := rfl
@[simp] theorem State.setKey_k (k : Key) (b : Bool) : (s.setKey k b).k = s.k.set k.val b := rfl
@[simp] theorem State.setKey_cap (k : Key) (b : Bool) : (s.setKey k b).cap = s.cap := rfl
@[simp] theorem State.setKey_dtArmed (k : Key) (b : Bool) : (s.setKey k b).dtArmed = s.dtArmed := rfl
@[simp] theorem State.setKey_dtCount (k : Key) (b : Bool) : (s.setKey k b).dtCount = s.dtCount := rfl
@[simp] theorem State.setKey_dtStamp (k : Key) (b : Bool) : (s.setKey k b).dtStamp = s.dtStamp := rfl
@[simp] theorem State.setKey_status (k : Key) (b : Bool) : (s.setKey k b).status = s.status := rfl
@[simp] theorem State.setKey_events (k : Key) (b : Bool) : (s.setKey k b).events = s.events := rfl
@[simp] theorem State.setKey_reply (k : Key) (b : Bool) : (s.setKey k b).reply = s.reply := rfl
@[simp] theorem State.setKey_inp (k : Key) (b : Bool) : (s.setKey k b).inp = s.inp := rfl
@[simp] theorem State.setKey_calls (k : Key) (b : Bool) : (s.setKey k b).calls = s.calls := rfl
@[simp] theorem State.setKey_draws (k : Key) (b : Bool) : (s.setKey k b).draws = s.draws := rfl

/-! ### setCap -/

@[simp] theorem State.setCap_v (c : Capture) : (s.setCap c).v = s.v := rfl
@[simp] theorem State.setCap_i (c : Capture) : (s.setCap c).i = s.i := rfl
@[simp] theorem State.setCap_pc (c : Capture) : (s.setCap c).pc = s.pc := rfl
@[simp] theorem State.setCap_stack (c : Capture) : (s.setCap c).stack = s.stack := rfl
@[simp] theorem State.setCap_mem (c : Capture) : (s.setCap c).mem = s.mem := rfl
@[simp] theorem State.setCap_d (c : Capture) : (s.setCap c).d = s.d := rfl
@[simp] theorem State.setCap_k (c : Capture) : (s.setCap c).k = s.k := rfl
@[simp] theorem State.setCap_cap (c : Capture) : (s.setCap c).cap = c := rfl
@[simp] theorem State.setCap_dtArmed (c : Capture) : (s.setCap c).dtArmed = s.dtArmed := rfl
@[simp] theorem State.setCap_dtCount (c : Capture) : (s.setCap c).dtCount = s.dtCount := rfl
@[simp] theorem State.setCap_dtStamp (c : Capture) : (s.setCap c).dtStamp = s.dtStamp := rfl
@[simp] theorem State.setCap_status (c : Capture) : (s.setCap c).status = s.status := rfl
@[simp] theorem State.setCap_events (c : Capture) : (s.setCap c).events = s.events := rfl
@[simp] theorem State.setCap_reply (c : Capture) : (s.setCap c).reply = s.reply := rfl
@[simp] theorem State.setCap_inp (c : Capture) : (s.setCap c).inp = s.inp := rfl
@[simp] theorem State.setCap_calls (c : Capture) : (s.setCap c).calls = s.calls := rfl
@[simp] theorem State.setCap_draws (c : Capture) : (s.setCap c).draws = s.draws := rfl

/-! ### dtStart -/

@[simp] theorem State.dtStart_v (b : Byte) (t : Time) : (s.dtStart b t).v = s.v := rfl
@[simp] theorem State.dtStart_i (b : Byte) (t : Time) : (s.dtStart b t).i = s.i := rfl
@[simp] theorem State.dtStart_pc (b : Byte) (t : Time) : (s.dtStart b t).pc = s.pc := rfl
@[simp] theorem State.dtStart_stack (b : Byte) (t : Time) : (s.dtStart b t).stack = s.stack := rfl
@[simp] theorem State.dtStart_mem (b : Byte) (t : Time) : (s.dtStart b t).mem = s.mem := rfl
@[simp] theorem State.dtStart_d (b : Byte) (t : Time) : (s.dtStart b t).d = s.d := rfl
@[simp] theorem State.dtStart_k (b : Byte) (t : Time) : (s.dtStart b t).k = s.k := rfl
@[simp] theorem State.dtStart_cap (b : Byte) (t : Time) : (s.dtStart b t).cap = s.cap := rfl
@[simp] theorem State.dtStart_dtArmed (b : Byte) (t : Time) : (s.dtStart b t).dtArmed = true := rfl
@[simp] theorem State.dtStart_dtCount (b : Byte) (t : Time) : (s.dtStart b t).dtCount = b := rfl
@[simp] theorem State.dtStart_dtStamp (b : Byte) (t : Time) : (s.dtStart b t).dtStamp = t := rfl
@[simp] theorem State.dtStart_status (b : Byte) (t : Time) : (s.dtStart b t).status = s.status := rfl
@[simp] theorem State.dtStart_events (b : Byte) (t : Time) : (s.dtStart b t).events = s.events := rfl
@[simp] theorem State.dtStart_reply (b : Byte) (t : Time) : (s.dtStart b t).reply = s.reply := rfl
@[simp] theorem State.dtStart_inp (b : Byte) (t : Time) : (s.dtStart b t).inp = s.inp := rfl
@[simp] theorem State.dtStart_calls (b : Byte) (t : Time) : (s.dtStart b t).calls = s.calls := rfl
@[simp] theorem State.dtStart_draws (b : Byte) (t : Time) : (s.dtStart b t).draws = s.draws := rfl

/-! ### dtTick -/

@[simp] theorem State.dtTick_v (n : Nat) (t : Time) : (s.dtTick n t).v = s.v :=
    by unfold State.dtTick; split <;> rfl
@[simp] theorem State.dtTick_i (n : Nat) (t : Time) : (s.dtTick n t).i = s.i :=
    by unfold State.dtTick; split <;> rfl
@[simp] theorem State.dtTick_pc (n : Nat) (t : Time) : (s.dtTick n t).pc = s.pc :=
    by unfold State.dtTick; split <;> rfl
@[simp] theorem State.dtTick_stack (n : Nat) (t : Time) : (s.dtTick n t).stack = s.stack :=
    by unfold State.dtTick; split <;> rfl
@[simp] theorem State.dtTick_mem (n : Nat) (t : Time) : (s.dtTick n t).mem = s.mem :=
    by unfold State.dtTick; split <;> rfl
@[simp] theorem State.dtTick_d (n : Nat) (t : Time) : (s.dtTick n t).d = s.d :=
    by unfold State.dtTick; split <;> rfl
@[simp] theorem State.dtTick_k (n : Nat) (t : Time) : (s.dtTick n t).k = s.k :=
    by unfold State.dtTick; split <;> rfl
@[simp] theorem State.dtTick_cap (n : Nat) (t : Time) : (s.dtTick n t).cap = s.cap :=
    by unfold State.dtTick; split <;> rfl
@[simp] theorem State.dtTick_status (n : Nat) (t : Time) : (s.dtTick n t).status = s.status :=
    by unfold State.dtTick; split <;> rfl
@[simp] theorem State.dtTick_events (n : Nat) (t : Time) : (s.dtTick n t).events = s.events :=
    by unfold State.dtTick; split <;> rfl
@[simp] theorem State.dtTick_reply (n : Nat) (t : Time) : (s.dtTick n t).reply = s.reply :=
    by unfold State.dtTick; split <;> rfl
@[simp] theorem State.dtTick_inp (n : Nat) (t : Time) : (s.dtTick n t).inp = s.inp :=
    by unfold State.dtTick; split <;> rfl
@[simp] theorem State.dtTick_calls (n : Nat) (t : Time) : (s.dtTick n t).calls = s.calls :=
    by unfold State.dtTick; split <;> rfl
@[simp] theorem State.dtTick_draws (n : Nat) (t : Time) : (s.dtTick n t).draws = s.draws :=
    by unfold State.dtTick; split <;> rfl

/-! ### dtUpdate -/

@[simp] theorem State.dtUpdate_v (t : Time) : (s.dtUpdate t).v = s.v :=
    by unfold State.dtUpdate; split <;> simp
@[simp] theorem State.dtUpdate_i (t : Time) : (s.dtUpdate t).i = s.i :=
    by unfold State.dtUpdate; split <;> simp
@[simp] theorem State.dtUpdate_pc (t : Time) : (s.dtUpdate t).pc = s.pc :=
    by unfold State.dtUpdate; split <;> simp
@[simp] theorem State.dtUpdate_stack (t : Time) : (s.dtUpdate t).stack = s.stack :=
    by unfold State.dtUpdate; split <;> simp
@[simp] theorem State.dtUpdate_mem (t : Time) : (s.dtUpdate t).mem = s.mem :=
    by unfold State.dtUpdate; split <;> simp
@[simp] theorem State.dtUpdate_d (t : Time) : (s.dtUpdate t).d = s.d :=
    by unfold State.dtUpdate; split <;> simp
@[simp] theorem State.dtUpdate_k (t : Time) : (s.dtUpdate t).k = s.k :=
    by unfold State.dtUpdate; split <;> simp
@[simp] theorem State.dtUpdate_cap (t : Time) : (s.dtUpdate t).cap = s.cap :=
    by unfold State.dtUpdate; split <;> simp
@[simp] theorem State.dtUpdate_status (t : Time) : (s.dtUpdate t).status = s.status :=
    by unfold State.dtUpdate; split <;> simp
@[simp] theorem State.dtUpdate_events (t : Time) : (s.dtUpdate t).events = s.events :=
    by unfold State.dtUpdate; split <;> simp
@[simp] theorem State.dtUpdate_reply (t : Time) : (s.dtUpdate t).reply = s.reply :=
    by unfold State.dtUpdate; split <;> simp
@[simp] theorem State.dtUpdate_inp (t : Time) : (s.dtUpdate t).inp = s.inp :=
    by unfold State.dtUpdate; split <;> simp
@[simp] theorem State.dtUpdate_calls (t : Time) : (s.dtUpdate t).calls = s.calls :=
    by unfold State.dtUpdate; split <;> simp
@[simp] theorem State.dtUpdate_draws (t : Time) : (s.dtUpdate t).draws = s.draws :=
    by unfold State.dtUpdate; split <;> simp

/-! ### opened -/

@[simp] theorem State.opened_v : s.opened.v = s.v := rfl
@[simp] theorem State.opened_i : s.opened.i = s.i := rfl
@[simp] theorem State.opened_pc : s.opened.pc = s.pc := rfl
@[simp] theorem State.opened_stack : s.opened.stack = s.stack := rfl
@[simp] theorem State.opened_mem : s.opened.mem = s.mem := rfl
@[simp] theorem State.opened_d : s.opened.d = s.d := rfl
@[simp] theorem State.opened_k : s.opened.k = s.k := rfl
@[simp] theorem State.opened_cap : s.opened.cap = s.cap := rfl
@[simp] theorem State.opened_dtArmed : s.opened.dtArmed = s.dtArmed := rfl
@[simp] theorem State.opened_dtCount : s.opened.dtCount = s.dtCount := rfl
@[simp] theorem State.opened_dtStamp : s.opened.dtStamp = s.dtStamp := rfl
@[simp] theorem State.opened_status : s.opened.status = s.status := rfl
@[simp] theorem State.opened_events : s.opened.events = [] := rfl
@[simp] theorem State.opened_reply : s.opened.reply = .ok := rfl
@[simp] theorem State.opened_inp : s.opened.inp = s.inp := rfl
@[simp] theorem State.opened_calls : s.opened.calls = s.calls := rfl
@[simp] theorem State.opened_draws : s.opened.draws = s.draws := rfl

/-! ### takeInputs -/

@[simp] theorem State.takeInputs_v : s.takeInputs.v = s.v := by unfold State.takeInputs; split <;> rfl
@[simp] theorem State.takeInputs_i : s.takeInputs.i = s.i := by unfold State.takeInputs; split <;> rfl
@[simp] theorem State.takeInputs_pc : s.takeInputs.pc = s.pc := by unfold State.takeInputs; split <;> rfl
@[simp] theorem State.takeInputs_stack : s.takeInputs.stack = s.stack :=
    by unfold State.takeInputs; split <;> rfl
@[simp] theorem State.takeInputs_mem : s.takeInputs.mem = s.mem := by unfold State.takeInputs; split <;> rfl
@[simp] theorem State.takeInputs_d : s.takeInputs.d = s.d := by unfold State.takeInputs; split <;> rfl
@[simp] theorem State.takeInputs_k : s.takeInputs.k = s.k := by unfold State.takeInputs; split <;> rfl
@[simp] theorem State.takeInputs_cap : s.takeInputs.cap = s.cap := by unfold State.takeInputs; split <;> rfl
@[simp] theorem State.takeInputs_dtArmed : s.takeInputs.dtArmed = s.dtArmed :=
    by unfold State.takeInputs; split <;> rfl
@[simp] theorem State.takeInputs_dtCount : s.takeInputs.dtCount = s.dtCount :=
    by unfold State.takeInputs; split <;> rfl
@[simp] theorem State.takeInputs_dtStamp : s.takeInputs.dtStamp = s.dtStamp :=
    by unfold State.takeInputs; split <;> rfl
@[simp] theorem State.takeInputs_status : s.takeInputs.status = s.status :=
    by unfold State.takeInputs; split <;> rfl
@[simp] theorem State.takeInputs_events : s.takeInputs.events = s.events :=
    by unfold State.takeInputs; split <;> rfl
@[simp] theorem State.takeInputs_reply : s.takeInputs.reply = s.reply :=
    by unfold State.takeInputs; split <;> rfl

/-! ### startCycle -/

@[simp] theorem State.startCycle_v : s.startCycle.v = s.v := by simp [State.startCycle]
@[simp] theorem State.startCycle_i : s.startCycle.i = s.i := by simp [State.startCycle]
@[simp] theorem State.startCycle_pc : s.startCycle.pc = s.pc := by simp [State.startCycle]
@[simp] theorem State.startCycle_stack : s.startCycle.stack = s.stack := by simp [State.startCycle]
@[simp] theorem State.startCycle_mem : s.startCycle.mem = s.mem := by simp [State.startCycle]
@[simp] theorem State.startCycle_d : s.startCycle.d = s.d := by simp [State.startCycle]
@[simp] theorem State.startCycle_k : s.startCycle.k = s.k := by simp [State.startCycle]
@[simp] theorem State.startCycle_cap : s.startCycle.cap = s.cap := by simp [State.startCycle]
@[simp] theorem State.startCycle_status : s.startCycle.status = s.status := by simp [State.startCycle]
@[simp] theorem State.startCycle_events : s.startCycle.events = [] := by simp [State.startCycle]
@[simp] theorem State.startCycle_reply : s.startCycle.reply = .ok := by simp [State.startCycle]
@[simp] theorem State.startCycle_inp : s.startCycle.inp = s.takeInputs.inp := by simp [State.startCycle]
@[simp] theorem State.startCycle_calls : s.startCycle.calls = s.takeInputs.calls := by simp [State.startCycle]
@[simp] theorem State.startCycle_draws : s.startCycle.draws = s.takeInputs.draws := by simp [State.startCycle]

/-! ### What registers read as -/

/-- A register after a register write (10_state.md R21: none is hardwired or aliased). -/
theorem State.reg_setReg (r q : Reg) (b : Byte) :
    (s.setReg r b).reg q = if q = r then b else s.reg q := by
  unfold State.reg State.setReg
  by_cases h : q = r
  · subst h; simp
  · have : r.val ≠ q.val := fun e => h (Fin.ext e.symm)
    simp [h, this]

/-- A register after a flag write. -/
theorem State.reg_setFlag (q : Reg) (c : Bool) :
    (s.setFlag c).reg q = if q = 15 then flagByte c else s.reg q :=
  s.reg_setReg regF q (flagByte c)

/-- A register after the two writes of the flag-last law (42_register_alu.md R152). -/
theorem State.reg_writeFlagLast (r q : Reg) (b : Byte) (c : Bool) :
    (s.writeFlagLast r b c).reg q = if q = 15 then flagByte c else if q = r then b else s.reg q := by
  rw [State.writeFlagLast, State.reg_setFlag, State.reg_setReg]

/-- Two states with the same register file read the same. -/
theorem State.reg_congr {s t : State} (h : t.v = s.v) (q : Reg) : t.reg q = s.reg q := by
  unfold State.reg; rw [h]

@[simp] theorem State.reg_setI (a : Word) (q : Reg) : (s.setI a).reg q = s.reg q :=
  State.reg_congr (by simp) q
@[simp] theorem State.reg_setMem (m : Memory) (q : Reg) : (s.setMem m).reg q = s.reg q :=
  State.reg_congr (by simp) q
@[simp] theorem State.reg_jump (a : Word) (q : Reg) : (s.jump a).reg q = s.reg q :=
  State.reg_congr (by simp) q
@[simp] theorem State.reg_advance (q : Reg) : s.advance.reg q = s.reg q :=
  State.reg_congr (by simp) q
@[simp] theorem State.reg_skip (q : Reg) : s.skip.reg q = s.reg q :=
  State.reg_congr (by simp) q
@[simp] theorem State.reg_skipIf (c : Bool) (q : Reg) : (s.skipIf c).reg q = s.reg q :=
  State.reg_congr (by simp) q
@[simp] theorem State.reg_push (a : Word) (q : Reg) : (s.push a).reg q = s.reg q :=
  State.reg_congr (by simp) q
@[simp] theorem State.reg_emit (e : Event) (q : Reg) : (s.emit e).reg q = s.reg q :=
  State.reg_congr (by simp) q
@[simp] theorem State.reg_faulted (f : Fault) (q : Reg) : (s.faulted f).reg q = s.reg q :=
  State.reg_congr (by simp) q
@[simp] theorem State.reg_setKey (k : Key) (b : Bool) (q : Reg) : (s.setKey k b).reg q = s.reg q :=
  State.reg_congr (by simp) q
@[simp] theorem State.reg_setCap (c : Capture) (q : Reg) : (s.setCap c).reg q = s.reg q :=
  State.reg_congr (by simp) q
@[simp] theorem State.reg_dtStart (b : Byte) (t : Time) (q : Reg) : (s.dtStart b t).reg q = s.reg q :=
  State.reg_congr (by simp) q
@[simp] theorem State.reg_dtTick (n : Nat) (t : Time) (q : Reg) : (s.dtTick n t).reg q = s.reg q :=
  State.reg_congr (by simp) q
@[simp] theorem State.reg_dtUpdate (t : Time) (q : Reg) : (s.dtUpdate t).reg q = s.reg q :=
  State.reg_congr (by simp) q
@[simp] theorem State.reg_opened (q : Reg) : s.opened.reg q = s.reg q :=
  State.reg_congr (by simp) q
@[simp] theorem State.reg_takeInputs (q : Reg) : s.takeInputs.reg q = s.reg q :=
  State.reg_congr (by simp) q
@[simp] theorem State.reg_startCycle (q : Reg) : s.startCycle.reg q = s.reg q :=
  State.reg_congr (by simp) q

/-! ### What keys read as -/

/-- A key flag after a key write (45_keypad.md R221, R222). -/
theorem State.held_setKey (k q : Key) (b : Bool) :
    (s.setKey k b).held q = if q = k then b else s.held q := by
  unfold State.held State.setKey
  by_cases h : q = k
  · subst h; simp
  · have : k.val ≠ q.val := fun e => h (Fin.ext e.symm)
    simp [h, this]

end Sys2Proof.Machine
end

