-- ==== Sys2Proof/Laws/Ops.lean ====
section
/-! SUPPORT. What each shared operation does, said once: arithmetic, flags, bulk register transfers,
the timer, the keypad, the fetch and the load. -/

namespace Sys2Proof.Machine

/-! ### Arithmetic (42_register_alu.md R164) -/

theorem addByte_eq (a b : Byte) : addByte a b = a + b := by
  apply BitVec.eq_of_toNat_eq; simp [addByte]

theorem addByte_toNat (a b : Byte) : (addByte a b).toNat = (a.toNat + b.toNat) % 256 := by
  simp [addByte]

theorem subByte_toNat (a b : Byte) : (subByte a b).toNat = (a.toNat + 256 - b.toNat) % 256 := by
  have := a.isLt
  have := b.isLt
  rw [subByte, BitVec.toNat_ofInt]
  omega

theorem subByte_eq (a b : Byte) : subByte a b = a - b := by
  apply BitVec.eq_of_toNat_eq
  have := a.isLt
  have := b.isLt
  rw [subByte_toNat, BitVec.toNat_sub]
  omega

theorem shiftRightByte_eq (b : Byte) : shiftRightByte b = b >>> 1 := by
  apply BitVec.eq_of_toNat_eq
  have := b.isLt
  simp [shiftRightByte, Nat.shiftRight_eq_div_pow]
  omega

theorem shiftLeftByte_eq (b : Byte) : shiftLeftByte b = b <<< 1 := by
  apply BitVec.eq_of_toNat_eq
  simp [shiftLeftByte, Nat.shiftLeft_eq]

theorem lowNibble_val (b : Byte) : (lowNibble b).val = (b &&& 0x0F#8).toNat := by
  have h : b.toNat &&& 15 = b.toNat % 16 := Nat.and_two_pow_sub_one_eq_mod b.toNat 4
  simp [lowNibble, h]

theorem advance_pc (s : State) : s.advance.pc = s.pc + 2 := by
  apply BitVec.eq_of_toNat_eq; simp

theorem skip_pc (s : State) : s.skip.pc = s.pc + 4 := by
  apply BitVec.eq_of_toNat_eq; simp

theorem skipIf_pc (s : State) (c : Bool) : (s.skipIf c).pc = if c then s.pc + 4 else s.pc + 2 := by
  cases c
  · exact advance_pc s
  · exact skip_pc s

/-! ### Flags -/

theorem carry_iff (a b : Byte) : carry a b = true ↔ 256 ≤ a.toNat + b.toNat := by
  simp [carry]; omega

theorem notBorrow_iff (a b : Byte) : notBorrow a b = true ↔ b.toNat ≤ a.toNat := by
  simp [notBorrow]

/-! ### Bulk register transfers (43_index_memory.md R184, R185) -/

theorem length_regsUpTo (s : State) (x : Reg) : (s.regsUpTo x).length = x.val + 1 := by
  have := x.isLt
  rw [State.regsUpTo, List.length_take, Vector.length_toList]
  omega

theorem getElem_regsUpTo (s : State) (x : Reg) (r : Nat) (h : r < (s.regsUpTo x).length) :
    (s.regsUpTo x)[r] = s.reg ⟨r, by rw [length_regsUpTo] at h; omega⟩ := by
  simp [State.regsUpTo, State.reg]

/-- Register q after bytes go into consecutive registers from r on. -/
theorem getElem_loadRegs (bs : List Byte) : ∀ (v : Vector Byte 16) (r q : Nat) (hq : q < 16),
    (loadRegs v r bs)[q] = if h : r ≤ q ∧ q < r + bs.length then bs[q - r]'(by omega) else v[q] := by
  induction bs with
  | nil =>
    intro v r q hq
    rw [dif_neg fun h => by have h2 : q < r := h.2; omega]
    rfl
  | cons b bs ih =>
    intro v r q hq
    rw [loadRegs, ih _ _ _ hq]
    by_cases h : r + 1 ≤ q ∧ q < r + 1 + bs.length
    · have h' : r ≤ q ∧ q < r + (b :: bs).length := by simp only [List.length_cons]; omega
      rw [dif_pos h, dif_pos h']
      have e : q - r = (q - (r + 1)) + 1 := by omega
      simp [e]
    · rw [dif_neg h]
      by_cases hr : q = r
      · subst hr
        have h' : q ≤ q ∧ q < q + (b :: bs).length := by simp only [List.length_cons]; omega
        rw [dif_pos h']
        simp [hq]
      · have h' : ¬ (r ≤ q ∧ q < r + (b :: bs).length) := by simp only [List.length_cons]; omega
        rw [dif_neg h']
        split
        · have : r ≠ q := fun e => hr e.symm
          simp [this]
        · rfl

/-! ### The delay timer (46_timers.md R240 to R242) -/

/-- Everything an update does: a disarmed timer is left alone; an armed one disarms at 0, or keeps what
is left and records the time. -/
theorem dtUpdate_cases (s : State) (t : Time) :
    (s.dtArmed = false ∧ s.dtUpdate t = s) ∨
    (s.dtArmed = true ∧ s.dtCount.toNat ≤ ticks s.dtStamp t ∧
      s.dtUpdate t = { s with dtCount := 0#8, dtArmed := false }) ∨
    (s.dtArmed = true ∧ ticks s.dtStamp t < s.dtCount.toNat ∧
      s.dtUpdate t = { s with dtCount := BitVec.ofNat 8 (s.dtCount.toNat - ticks s.dtStamp t), dtStamp := t }) := by
  unfold State.dtUpdate State.dtTick
  cases h : s.dtArmed
  · exact .inl ⟨rfl, by simp⟩
  · by_cases hc : s.dtCount.toNat ≤ ticks s.dtStamp t
    · exact .inr (.inl ⟨rfl, hc, by simp [hc]⟩)
    · exact .inr (.inr ⟨rfl, by omega, by simp [hc]⟩)

/-- The one law of `TICKS` (46_timers.md R248). -/
theorem sixty_le_ticks (t t' : Time) (h : t + 1 ≤ t') : 60 ≤ ticks t t' := by
  simp [ticks, h]

/-! ### The keypad (45_keypad.md R221, R222) -/

/-- Everything a key press does: it captures while capturing, on a press or at the host's choice; else
it sets the flag alone. -/
theorem keyDown_cases (k : Key) (choice : Bool) (s : State) :
    (s.cap = .capturing ∧ (s.held k = false ∨ choice = true) ∧ keyDown k choice s =
      { s with k := s.k.set k.val true, cap := .captured k, events := s.events ++ [.playTone captureTone] }) ∨
    (¬ (s.cap = .capturing ∧ (s.held k = false ∨ choice = true)) ∧
      keyDown k choice s = { s with k := s.k.set k.val true }) := by
  unfold keyDown
  by_cases h : s.cap = .capturing ∧ (s.held k = false ∨ choice = true)
  · exact .inl ⟨h.1, h.2, by rw [if_pos h]; rfl⟩
  · exact .inr ⟨h, by rw [if_neg h]; rfl⟩

/-! ### The fetch (20_memory.md R53) -/

theorem fetch_congr {s t : State} (hp : t.pc = s.pc) (hm : t.mem = s.mem) : t.fetch = s.fetch := by
  unfold State.fetch; rw [hp, hm]

theorem fetch_eq_some {s : State} (h : s.pc.toNat + 1 < Config.memSize) :
    s.fetch = some (wordOfBytes (s.mem.read s.pc.toNat) (s.mem.read (s.pc.toNat + 1))) := by
  have : s.pc.toNat < Config.memSize := by omega
  simp [State.fetch, h, this]

theorem fetch_eq_none_iff {s : State} : s.fetch = none ↔ Config.memSize ≤ s.pc.toNat + 1 := by
  simp [State.fetch]; omega

/-! ### The load (70_reset_and_hazards.md R300 to R302) -/

/-- Everything a load does: one of two errors with nothing else changed, or the whole reset. -/
theorem load_cases (p : Option (List Byte)) (s : State) :
    ((p = none ∨ p = some []) ∧ load p s = { s with reply := .absentProgram }) ∨
    (∃ bs, p = some bs ∧ maxProgram < bs.length ∧ load p s = { s with reply := .oversizedProgram }) ∨
    (∃ bs, p = some bs ∧ bs ≠ [] ∧ bs.length ≤ maxProgram ∧
      load p s = { resetAndCopy bs s with reply := .ok }) := by
  match p with
  | none => exact .inl ⟨.inl rfl, rfl⟩
  | some [] => exact .inl ⟨.inr rfl, rfl⟩
  | some (b :: bs) =>
    by_cases h : maxProgram < (b :: bs).length
    · refine .inr (.inl ⟨_, rfl, h, ?_⟩)
      rw [load, if_neg (by simp), if_pos h]
    · refine .inr (.inr ⟨_, rfl, by simp, by omega, ?_⟩)
      rw [load, if_neg (by simp), if_neg h]

/-- A loaded memory is in canonical form. -/
theorem wf_loadedMemory (p : List Byte) : (loadedMemory p).wf = true :=
  Memory.wf_writeBytes p [] Config.start Memory.wf_nil

end Sys2Proof.Machine
end

