-- ==== Sys2Proof/Laws/PerInstr.lean ====
section
/-! SUPPORT. A statement about every instruction as syntax, one lemma per constructor: the encoder's word
meets the row's "match" and "mask" of spec/opcode_table.json, so it has the row's fixed bits. -/

namespace Sys2Proof.Laws.MatchesTable

/-- The row's "mask": the bits the table fixes. -/
def mask : Instr → Word
  | .cls => 0xFFFF#16
  | .ret => 0xFFFF#16
  | .sys _ => 0xF000#16
  | .jp _ => 0xF000#16
  | .call _ => 0xF000#16
  | .seImm _ _ => 0xF000#16
  | .sneImm _ _ => 0xF000#16
  | .seReg _ _ => 0xF00F#16
  | .ldImm _ _ => 0xF000#16
  | .addImm _ _ => 0xF000#16
  | .ldReg _ _ => 0xF00F#16
  | .orReg _ _ => 0xF00F#16
  | .andReg _ _ => 0xF00F#16
  | .xorReg _ _ => 0xF00F#16
  | .addReg _ _ => 0xF00F#16
  | .sub _ _ => 0xF00F#16
  | .shr _ _ => 0xF00F#16
  | .subn _ _ => 0xF00F#16
  | .shl _ _ => 0xF00F#16
  | .sneReg _ _ => 0xF00F#16
  | .ldI _ => 0xF000#16
  | .jpV0 _ => 0xF000#16
  | .rnd _ _ => 0xF000#16
  | .drw _ _ _ => 0xF000#16
  | .skp _ => 0xF0FF#16
  | .sknp _ => 0xF0FF#16
  | .ldVxDt _ => 0xF0FF#16
  | .ldVxK _ => 0xF0FF#16
  | .ldDtVx _ => 0xF0FF#16
  | .ldStVx _ => 0xF0FF#16
  | .addI _ => 0xF0FF#16
  | .ldF _ => 0xF0FF#16
  | .ldB _ => 0xF0FF#16
  | .stRegs _ => 0xF0FF#16
  | .ldRegs _ => 0xF0FF#16

/-- The row's "match": the value of the fixed bits. -/
def fixedBits : Instr → Word
  | .cls => 0x00E0#16
  | .ret => 0x00EE#16
  | .sys _ => 0x0000#16
  | .jp _ => 0x1000#16
  | .call _ => 0x2000#16
  | .seImm _ _ => 0x3000#16
  | .sneImm _ _ => 0x4000#16
  | .seReg _ _ => 0x5000#16
  | .ldImm _ _ => 0x6000#16
  | .addImm _ _ => 0x7000#16
  | .ldReg _ _ => 0x8000#16
  | .orReg _ _ => 0x8001#16
  | .andReg _ _ => 0x8002#16
  | .xorReg _ _ => 0x8003#16
  | .addReg _ _ => 0x8004#16
  | .sub _ _ => 0x8005#16
  | .shr _ _ => 0x8006#16
  | .subn _ _ => 0x8007#16
  | .shl _ _ => 0x800E#16
  | .sneReg _ _ => 0x9000#16
  | .ldI _ => 0xA000#16
  | .jpV0 _ => 0xB000#16
  | .rnd _ _ => 0xC000#16
  | .drw _ _ _ => 0xD000#16
  | .skp _ => 0xE09E#16
  | .sknp _ => 0xE0A1#16
  | .ldVxDt _ => 0xF007#16
  | .ldVxK _ => 0xF00A#16
  | .ldDtVx _ => 0xF015#16
  | .ldStVx _ => 0xF018#16
  | .addI _ => 0xF01E#16
  | .ldF _ => 0xF029#16
  | .ldB _ => 0xF033#16
  | .stRegs _ => 0xF055#16
  | .ldRegs _ => 0xF065#16

/-- The word of an instruction has the fixed bits of its row. -/
def Statement (i : Instr) : Prop := encode i &&& mask i = fixedBits i

theorem append_and {m n : Nat} (a c : BitVec m) (b d : BitVec n) :
    (a ++ b) &&& (c ++ d) = (a &&& c) ++ (b &&& d) := by
  apply BitVec.eq_of_getLsbD_eq
  intro k hk
  simp only [BitVec.getLsbD_and, BitVec.getLsbD_append]
  split <;> rfl

theorem zeros_append : ∀ f : BitVec 4, 0#4 ++ (0#4 ++ f) = 0#8 ++ f := by decide

theorem and_maskNNN (op : BitVec 4) (nnn : Addr12) : formatNNN op nnn &&& 0xF000#16 = op ++ 0#12 := by
  have : (0xF000#16 : Word) = 0xF#4 ++ 0#12 := by decide
  have h : op &&& 0xF#4 = op := by
    have := BitVec.and_allOnes (x := op)
    simpa using this
  rw [this]
  refine (append_and op 0xF#4 nnn 0#12).trans ?_
  rw [h, BitVec.and_zero]

theorem and_maskXNN (op : BitVec 4) (x : Reg) (nn : Byte) : formatXNN op x nn &&& 0xF000#16 = op ++ 0#12 :=
  and_maskNNN op (nibble x ++ nn)

theorem and_maskXYN (op : BitVec 4) (x y : Reg) (n : BitVec 4) :
    formatXYN op x y n &&& 0xF000#16 = op ++ 0#12 :=
  and_maskNNN op (nibble x ++ (nibble y ++ n))

theorem and_maskXFF (op : BitVec 4) (x : Reg) (ff : Byte) :
    formatXNN op x ff &&& 0xF0FF#16 = op ++ (0#4 ++ ff) := by
  have : (0xF0FF#16 : Word) = 0xF#4 ++ (0#4 ++ 0xFF#8) := by decide
  have h : op &&& 0xF#4 = op := by
    have := BitVec.and_allOnes (x := op)
    simpa using this
  have h' : ff &&& 0xFF#8 = ff := by
    have := BitVec.and_allOnes (x := ff)
    simpa using this
  rw [this]
  refine (append_and op 0xF#4 (nibble x ++ ff) (0#4 ++ 0xFF#8)).trans ?_
  rw [append_and, h, h', BitVec.and_zero]

theorem and_maskXYF (op : BitVec 4) (x y : Reg) (f : BitVec 4) :
    formatXYN op x y f &&& 0xF00F#16 = op ++ (0#8 ++ f) := by
  have : (0xF00F#16 : Word) = 0xF#4 ++ (0#4 ++ (0#4 ++ 0xF#4)) := by decide
  have h : op &&& 0xF#4 = op := by
    have := BitVec.and_allOnes (x := op)
    simpa using this
  have h' : f &&& 0xF#4 = f := by
    have := BitVec.and_allOnes (x := f)
    simpa using this
  rw [this]
  refine (append_and op 0xF#4 (nibble x ++ (nibble y ++ f)) (0#4 ++ (0#4 ++ 0xF#4))).trans ?_
  rw [append_and, append_and, h, h', BitVec.and_zero, BitVec.and_zero, zeros_append]

theorem cls : Statement .cls := rfl
theorem ret : Statement .ret := rfl
theorem sys (nnn : Addr12) : Statement (.sys nnn) := and_maskNNN 0x0#4 nnn
theorem jp (nnn : Addr12) : Statement (.jp nnn) := and_maskNNN 0x1#4 nnn
theorem call (nnn : Addr12) : Statement (.call nnn) := and_maskNNN 0x2#4 nnn
theorem seImm (x : Reg) (nn : Byte) : Statement (.seImm x nn) := and_maskXNN 0x3#4 x nn
theorem sneImm (x : Reg) (nn : Byte) : Statement (.sneImm x nn) := and_maskXNN 0x4#4 x nn
theorem seReg (x : Reg) (y : Reg) : Statement (.seReg x y) := and_maskXYF 0x5#4 x y 0x0#4
theorem ldImm (x : Reg) (nn : Byte) : Statement (.ldImm x nn) := and_maskXNN 0x6#4 x nn
theorem addImm (x : Reg) (nn : Byte) : Statement (.addImm x nn) := and_maskXNN 0x7#4 x nn
theorem ldReg (x : Reg) (y : Reg) : Statement (.ldReg x y) := and_maskXYF 0x8#4 x y 0x0#4
theorem orReg (x : Reg) (y : Reg) : Statement (.orReg x y) := and_maskXYF 0x8#4 x y 0x1#4
theorem andReg (x : Reg) (y : Reg) : Statement (.andReg x y) := and_maskXYF 0x8#4 x y 0x2#4
theorem xorReg (x : Reg) (y : Reg) : Statement (.xorReg x y) := and_maskXYF 0x8#4 x y 0x3#4
theorem addReg (x : Reg) (y : Reg) : Statement (.addReg x y) := and_maskXYF 0x8#4 x y 0x4#4
theorem sub (x : Reg) (y : Reg) : Statement (.sub x y) := and_maskXYF 0x8#4 x y 0x5#4
theorem shr (x : Reg) (y : Reg) : Statement (.shr x y) := and_maskXYF 0x8#4 x y 0x6#4
theorem subn (x : Reg) (y : Reg) : Statement (.subn x y) := and_maskXYF 0x8#4 x y 0x7#4
theorem shl (x : Reg) (y : Reg) : Statement (.shl x y) := and_maskXYF 0x8#4 x y 0xE#4
theorem sneReg (x : Reg) (y : Reg) : Statement (.sneReg x y) := and_maskXYF 0x9#4 x y 0x0#4
theorem ldI (nnn : Addr12) : Statement (.ldI nnn) := and_maskNNN 0xA#4 nnn
theorem jpV0 (nnn : Addr12) : Statement (.jpV0 nnn) := and_maskNNN 0xB#4 nnn
theorem rnd (x : Reg) (nn : Byte) : Statement (.rnd x nn) := and_maskXNN 0xC#4 x nn
theorem drw (x : Reg) (y : Reg) (n : Fin 16) : Statement (.drw x y n) := and_maskXYN 0xD#4 x y (nibble n)
theorem skp (x : Reg) : Statement (.skp x) := and_maskXFF 0xE#4 x 0x9E#8
theorem sknp (x : Reg) : Statement (.sknp x) := and_maskXFF 0xE#4 x 0xA1#8
theorem ldVxDt (x : Reg) : Statement (.ldVxDt x) := and_maskXFF 0xF#4 x 0x07#8
theorem ldVxK (x : Reg) : Statement (.ldVxK x) := and_maskXFF 0xF#4 x 0x0A#8
theorem ldDtVx (x : Reg) : Statement (.ldDtVx x) := and_maskXFF 0xF#4 x 0x15#8
theorem ldStVx (x : Reg) : Statement (.ldStVx x) := and_maskXFF 0xF#4 x 0x18#8
theorem addI (x : Reg) : Statement (.addI x) := and_maskXFF 0xF#4 x 0x1E#8
theorem ldF (x : Reg) : Statement (.ldF x) := and_maskXFF 0xF#4 x 0x29#8
theorem ldB (x : Reg) : Statement (.ldB x) := and_maskXFF 0xF#4 x 0x33#8
theorem stRegs (x : Reg) : Statement (.stRegs x) := and_maskXFF 0xF#4 x 0x55#8
theorem ldRegs (x : Reg) : Statement (.ldRegs x) := and_maskXFF 0xF#4 x 0x65#8

end Sys2Proof.Laws.MatchesTable
end

