-- ==== Sys2Proof/Laws/Step.lean ====
section
/-! SUPPORT. What a step can do, said once: the inversion of `step`, of `cycle` and of
`fetchExecute`, and a run's first step. -/

namespace Sys2Proof.Machine

/-- Where the host has no other call pending, a step is a cycle. -/
theorem step_eq_cycle {s : State} (h : s.cycleNext) : step s = cycle s := by
  unfold step
  unfold State.cycleNext at h
  split at h
  next hc => rw [hc]
  next c rest hc => rw [hc]; cases c <;> simp_all [Call.isCycle]

/-- Everything a step can do: one of the host's other calls, or a cycle. -/
theorem step_cases (s : State) :
    (∃ k choice rest, s.calls = .keyDown k choice :: rest ∧
      step s = .next (keyDown k choice { s with calls := rest }.opened)) ∨
    (∃ k rest, s.calls = .keyUp k :: rest ∧ step s = .next (keyUp k { s with calls := rest }.opened)) ∨
    (∃ p rest, s.calls = .load p :: rest ∧ step s = .next (load p { s with calls := rest }.opened)) ∨
    (s.cycleNext ∧ step s = cycle s) := by
  match h : s.calls with
  | [] => exact .inr (.inr (.inr ⟨by simp [State.cycleNext, h], by simp [step, h]⟩))
  | .cycle inp :: rest =>
    exact .inr (.inr (.inr ⟨by simp [State.cycleNext, h, Call.isCycle], by simp [step, h]⟩))
  | .keyDown k choice :: rest => exact .inl ⟨k, choice, rest, rfl, by simp [step, h]⟩
  | .keyUp k :: rest => exact .inr (.inl ⟨k, rest, rfl, by simp [step, h]⟩)
  | .load p :: rest => exact .inr (.inr (.inl ⟨p, rest, rfl, by simp [step, h]⟩))

/-- A cycle that answers a next state ran on a running machine. -/
theorem cycle_next {s t : State} (h : cycle s = .next t) :
    s.status = .running ∧ fetchExecute s.startCycle = .next t := by
  unfold cycle at h
  split at h
  · cases h
  · cases h
  next hs => exact ⟨hs, h⟩

/-- The decode stage only ever rejects a word as unrecognized, naming it (30_encoding.md R74). -/
theorem decodeWord_error {w : Word} {r : DecodeReject} (h : decodeWord w = .error r) :
    r = .unrecognized w := by
  unfold decodeWord at h
  split at h
  · unfold decodeGroup0 at h; split at h
    · cases h
    · split at h <;> cases h
  · cases h
  · cases h
  · cases h
  · cases h
  · split at h <;> simp_all
  · cases h
  · cases h
  · unfold decodeGroup8 at h; split at h <;> simp_all
  · split at h <;> simp_all
  · cases h
  · cases h
  · cases h
  · cases h
  · unfold decodeGroupE at h; split at h <;> simp_all
  · unfold decodeGroupF at h; split at h <;> simp_all

/-- Everything fetch, decode and execute can do: a fetch fault, a decode fault, or the instruction. -/
theorem fetchExecute_cases (s : State) :
    (s.fetch = none ∧ fetchExecute s = .next (s.faulted (.fetchOutOfBounds s.pc))) ∨
    (∃ w, s.fetch = some w ∧ decodeWord w = .error (.unrecognized w) ∧
      fetchExecute s = .next (s.faulted (.unrecognizedInstruction w))) ∨
    (∃ w j, s.fetch = some w ∧ decodeWord w = .ok j ∧ fetchExecute s = exec j s) := by
  match h : s.fetch with
  | none => exact .inl ⟨rfl, by simp [fetchExecute, h, raise]⟩
  | some w =>
    match hd : decodeWord w with
    | .error r =>
      have hr := decodeWord_error hd
      subst hr
      exact .inr (.inl ⟨w, rfl, hd, by simp [fetchExecute, h, hd, raiseReject, raise]⟩)
    | .ok j => exact .inr (.inr ⟨w, j, rfl, hd, by simp [fetchExecute, h, hd]⟩)

/-- The fetch sees the same word before and after the cycle's opening. -/
theorem fetch_startCycle (s : State) : s.startCycle.fetch = s.fetch :=
  fetch_congr (by simp) (by simp)

/-- A run of several steps takes its first step and goes on from there. -/
theorem run_of_step (m : Host.Core) {n : Nat} {s t : m.State} (h : m.step s = .next t) :
    m.run (n + 1) s = m.run n t := by
  simp only [Host.Core.run, h]

end Sys2Proof.Machine
end

