-- ==== Sys2Proof/Laws/Run.lean ====
section
/-! SUPPORT. Laws of runs: the points of a run by its first transaction, and everything `runUntil` does. -/

namespace Sys2Proof.Machine

@[simp] theorem RunPoint.after_state (p : RunPoint) (t : State) : (p.after t).state = t := rfl

@[simp] theorem RunPoint.after_events (p : RunPoint) (t : State) :
    (p.after t).events = p.events ++ t.events := rfl

@[simp] theorem RunPoint.after_cycles (p : RunPoint) (t : State) :
    (p.after t).cycles = if p.state.takesCycle then p.cycles + 1 else p.cycles := rfl

theorem takesCycle_iff (s : State) : s.takesCycle = true ↔ s.cycleNext := by
  unfold State.takesCycle State.cycleNext
  cases s.calls <;> simp

/-- No step answers a fault: a raised fault is a next state (log 1). -/
theorem step_ne_fault (s : State) (f : Fault) : step s ≠ .fault f := by
  intro h
  have exec_ne : ∀ (j : Instr) (u : State), exec j u ≠ .fault f := by
    intro j u he
    cases j
    case ret => simp only [exec, execRet] at he; split at he <;> cases he
    case drw => simp only [exec, execDrw] at he; split at he <;> cases he
    case ldB => simp only [exec, execLdB] at he; split at he <;> cases he
    case stRegs => simp only [exec, execStRegs] at he; split at he <;> cases he
    case ldRegs => simp only [exec, execLdRegs] at he; split at he <;> cases he
    case ldVxK =>
      simp only [exec, execLdVxK] at he
      split at he
      · cases he
      · cases he
      · split at he <;> cases he
    all_goals cases he
  rcases step_cases s with ⟨_, _, _, _, h'⟩ | ⟨_, _, _, h'⟩ | ⟨_, _, _, h'⟩ | ⟨_, h'⟩ <;> rw [h'] at h
  · cases h
  · cases h
  · cases h
  · unfold cycle at h
    split at h
    · cases h
    · cases h
    · rcases fetchExecute_cases s.startCycle with ⟨_, e⟩ | ⟨_, _, _, e⟩ | ⟨_, j, _, _, e⟩ <;> rw [e] at h
      · cases h
      · cases h
      · exact exec_ne j _ h

/-! ### The states of a run -/

@[simp] theorem stateAfter_zero (s : State) : stateAfter s 0 = some s := rfl

/-- The states of a run after its first step are those of the run from the state that step leaves. -/
theorem stateAfter_succ {s t : State} (h : step s = .next t) (i : Nat) :
    stateAfter s (i + 1) = stateAfter t i := by
  have h' : core.run (i + 1) s = core.run i t := run_of_step core h
  unfold stateAfter
  rw [h']

/-- After a refused step a run has no further state. -/
theorem stateAfter_refused {s : State} {r : Refusal} (h : step s = .refused r) (i : Nat) :
    stateAfter s (i + 1) = none := by
  have h' : core.run (i + 1) s = .refused r := by
    have hs : core.step s = .refused r := h
    simp only [Host.Core.run, hs]
  unfold stateAfter
  rw [h']

/-! ### The points of a run -/

theorem hasRun_zero {p q : RunPoint} : p.HasRun 0 q ↔ q = p := by
  constructor
  · rintro ⟨h1, h2, h3⟩
    obtain ⟨qs, qe, qc⟩ := q
    obtain ⟨ps, pe, pc⟩ := p
    simp at h1 h2 h3
    rw [h1, h2, h3]
  · rintro rfl
    exact ⟨rfl, by simp, by simp⟩

/-- A run of j + 1 transactions is its first step and a run of j transactions. -/
theorem hasRun_succ {p q : RunPoint} {t : State} (h : step p.state = .next t) (j : Nat) :
    p.HasRun (j + 1) q ↔ (p.after t).HasRun j q := by
  have hs := stateAfter_succ h
  have he : ∀ i, transactionEvents p.state (i + 1) = transactionEvents t i := by
    intro i; unfold transactionEvents; rw [hs]
  have hc : ∀ i, transactionIsCycle p.state (i + 1) = transactionIsCycle t i := by
    intro i; unfold transactionIsCycle; rw [hs]
  have he0 : transactionEvents p.state 0 = t.events := by
    unfold transactionEvents; rw [hs]; rfl
  have hc0 : transactionIsCycle p.state 0 = p.state.takesCycle := rfl
  have e1 : (List.range (j + 1)).flatMap (transactionEvents p.state) =
      t.events ++ (List.range j).flatMap (transactionEvents t) := by
    rw [List.range_succ_eq_map, List.flatMap_cons, List.flatMap_map, he0]
    congr 1
    exact congrArg (fun f => List.flatMap f (List.range j)) (funext he)
  have c1 : (List.range (j + 1)).countP (transactionIsCycle p.state) =
      (if p.state.takesCycle then 1 else 0) + (List.range j).countP (transactionIsCycle t) := by
    rw [List.range_succ_eq_map, List.countP_cons, List.countP_map, hc0, Nat.add_comm]
    congr 1
    exact congrArg (fun f => List.countP f (List.range j)) (funext hc)
  unfold RunPoint.HasRun
  rw [hs, e1, c1, ← List.append_assoc]
  refine and_congr_right fun _ => and_congr_right fun _ => ?_
  simp only [RunPoint.after_state, RunPoint.after_cycles]
  split <;> omega

/-- After a refused transaction a run has no further point. -/
theorem not_hasRun_of_refused {p q : RunPoint} {r : Refusal} (h : step p.state = .refused r) (j : Nat) :
    ¬ p.HasRun (j + 1) q := by
  rintro ⟨h1, _⟩
  rw [stateAfter_refused h] at h1
  cases h1

/-! ### The run to its end -/

/-- A point that reaches the end ends the run at once. -/
theorem runUntil_of_reached {e : RunEnd} {p : RunPoint} (h : e.reached p = true) (k : Nat) :
    runUntil e k p = .ended p := by
  cases k <;> simp [runUntil, h]

/-- Everything a run does at a point that does not reach its end: it is used up, goes on, or is refused. -/
theorem runUntil_cases {e : RunEnd} {p : RunPoint} (h : e.reached p = false) (k : Nat) :
    (k = 0 ∧ runUntil e k p = .unended p) ∨
    (∃ m t, k = m + 1 ∧ step p.state = .next t ∧ runUntil e k p = runUntil e m (p.after t)) ∨
    (∃ m r, k = m + 1 ∧ step p.state = .refused r ∧ runUntil e k p = .refused r p) := by
  match k with
  | 0 => exact .inl ⟨rfl, by simp [runUntil, h]⟩
  | m + 1 =>
    match hs : step p.state with
    | .next t => exact .inr (.inl ⟨m, t, rfl, rfl, by simp [runUntil, h, hs]⟩)
    | .refused r => exact .inr (.inr ⟨m, r, rfl, rfl, by simp [runUntil, h, hs]⟩)
    | .fault f => exact absurd hs (step_ne_fault _ f)

end Sys2Proof.Machine
end

