-- ==== Sys2Proof/Laws/Screen.lean ====
section
/-! SUPPORT. Laws of the display buffer: each drawing primitive's pixels and collision, said once. -/

namespace Sys2Proof.Machine

theorem Display.get_put (d : Display) (x x' : Fin 64) (y y' : Fin 32) (b : Bool) :
    (d.put x y b).get x' y' = if x' = x ∧ y' = y then b else d.get x' y' := by
  unfold Display.get Display.put
  by_cases hx : x' = x
  · subst hx
    by_cases hy : y' = y
    · subst hy; simp
    · have : y.val ≠ y'.val := fun e => hy (Fin.ext e.symm)
      simp [hy, this]
  · have : x.val ≠ x'.val := fun e => hx (Fin.ext e.symm)
    simp [hx, this]

@[simp] theorem Display.get_blank (x : Fin 64) (y : Fin 32) : Display.blank.get x y = false := by
  simp [Display.get, Display.blank]

/-- Two buffers with the same pixels are the same buffer. -/
theorem Display.ext_get {d e : Display} (h : ∀ x y, d.get x y = e.get x y) : d = e := by
  ext x hx y hy
  exact h ⟨x, hx⟩ ⟨y, hy⟩

/-- The pixels after the bit loop of `draw` (44_display.md R200). -/
theorem drawBits_get (y : Fin 32) (bits : List Bool) : ∀ (cx : Nat) (d : Display) (x' : Fin 64) (y' : Fin 32),
    (drawBits y bits cx d).1.get x' y' =
      (d.get x' y' ^^ (decide (y' = y ∧ cx ≤ x'.val) && bits.getD (x'.val - cx) false)) := by
  induction bits with
  | nil => intro cx d x' y'; simp [drawBits]
  | cons bit bits ih =>
    intro cx d x' y'
    unfold drawBits
    by_cases h : cx < 64
    · rw [dif_pos h]
      simp only [ih, Display.get_put]
      by_cases hy : y' = y
      · by_cases hx : x' = ⟨cx, h⟩
        · have hlt : ¬ cx + 1 ≤ cx := by omega
          subst hx; subst hy; simp [hlt]
        · have hne : x'.val ≠ cx := fun e => hx (Fin.ext e)
          by_cases hlt : cx + 1 ≤ x'.val
          · have e : x'.val - cx = (x'.val - (cx + 1)) + 1 := by omega
            have hle : cx ≤ x'.val := by omega
            simp [hx, hy, hlt, hle, e]
          · have hle : ¬ cx ≤ x'.val := by omega
            simp [hx, hlt, hle]
      · simp [hy]
    · rw [dif_neg h, ih]
      have h1 : ¬ cx + 1 ≤ x'.val := by omega
      have h2 : ¬ cx ≤ x'.val := by omega
      simp [h1, h2]

/-- The collision of the bit loop of `draw` (44_display.md R200): some set pixel meets a set bit. -/
theorem drawBits_collided (y : Fin 32) (bits : List Bool) : ∀ (cx : Nat) (d : Display),
    (drawBits y bits cx d).2 = true ↔
      ∃ x : Fin 64, cx ≤ x.val ∧ bits.getD (x.val - cx) false = true ∧ d.get x y = true := by
  induction bits with
  | nil => intro cx d; simp [drawBits]
  | cons bit bits ih =>
    intro cx d
    unfold drawBits
    by_cases h : cx < 64
    · rw [dif_pos h]
      simp only [Bool.or_eq_true, Bool.and_eq_true, ih, Display.get_put]
      constructor
      · rintro (⟨hold, hbit⟩ | ⟨x, hx, hb, hd⟩)
        · exact ⟨⟨cx, h⟩, Nat.le_refl _, by simpa using hbit, hold⟩
        · have hne : x ≠ ⟨cx, h⟩ := by rintro rfl; exact Nat.not_succ_le_self _ hx
          have e : x.val - cx = (x.val - (cx + 1)) + 1 := by omega
          refine ⟨x, by omega, ?_, by simpa [hne] using hd⟩
          rw [e]; simpa using hb
      · rintro ⟨x, hx, hb, hd⟩
        by_cases hc : x = ⟨cx, h⟩
        · subst hc; left; simp at hb; exact ⟨hd, hb⟩
        · have hne : x.val ≠ cx := fun e => hc (Fin.ext e)
          have e : x.val - cx = (x.val - (cx + 1)) + 1 := by omega
          rw [e] at hb
          exact .inr ⟨x, by omega, by simpa using hb, by simpa [hc] using hd⟩
    · rw [dif_neg h, ih]
      constructor
      · rintro ⟨x, hx, _⟩; omega
      · rintro ⟨x, hx, _⟩; omega

/-- The bits of a sprite row by column: bit `7 - j` at column j, none past the eighth. -/
theorem spriteBits_getD (octet : Byte) (j : Nat) :
    (spriteBits octet).getD j false = (decide (j < 8) && octet.getLsbD (7 - j)) := by
  unfold spriteBits
  match j with
  | 0 | 1 | 2 | 3 | 4 | 5 | 6 | 7 => simp
  | n + 8 =>
    have : ¬ n + 8 < 8 := by omega
    simp [this]

/-- The pixels after `draw` (44_display.md R200). -/
theorem drawRow_get (d : Display) (x0 : Fin 64) (y : Fin 32) (octet : Byte) (x' : Fin 64) (y' : Fin 32) :
    (drawRow d x0 y octet).1.get x' y' =
      (d.get x' y' ^^ (decide (y' = y ∧ x0.val ≤ x'.val ∧ x'.val < x0.val + 8) &&
        octet.getLsbD (7 - (x'.val - x0.val)))) := by
  unfold drawRow
  rw [drawBits_get, spriteBits_getD]
  by_cases h1 : y' = y <;> by_cases h2 : x0.val ≤ x'.val <;> by_cases h3 : x'.val < x0.val + 8
  all_goals
    have h4 : x'.val - x0.val < 8 ↔ x'.val < x0.val + 8 := by omega
    simp [h1, h2, h3, h4]

/-- The collision `draw` returns (44_display.md R200). -/
theorem drawRow_collided (d : Display) (x0 : Fin 64) (y : Fin 32) (octet : Byte) :
    (drawRow d x0 y octet).2 = true ↔
      ∃ x : Fin 64, x0.val ≤ x.val ∧ x.val < x0.val + 8 ∧ octet.getLsbD (7 - (x.val - x0.val)) = true ∧
        d.get x y = true := by
  unfold drawRow
  rw [drawBits_collided]
  refine exists_congr fun x => and_congr_right fun hx => ?_
  rw [spriteBits_getD]
  simp only [Bool.and_eq_true, decide_eq_true_eq, and_assoc]
  refine and_congr_left fun _ => ?_
  omega

theorem spriteBitAt_nil (x0 y0 x y : Nat) : spriteBitAt [] x0 y0 x y = false := by
  simp [spriteBitAt]

/-- A sprite's bits: those of its first row, then those of the rest one row lower. -/
theorem spriteBitAt_cons (octet : Byte) (octets : List Byte) (x0 y0 x y : Nat) :
    spriteBitAt (octet :: octets) x0 y0 x y =
      ((decide (y = y0 ∧ x0 ≤ x ∧ x < x0 + 8) && octet.getLsbD (7 - (x - x0))) ||
        spriteBitAt octets x0 (y0 + 1) x y) := by
  unfold spriteBitAt
  by_cases hy : y = y0
  · subst hy
    have : ¬ y + 1 ≤ y := by omega
    simp [this]
  · by_cases hle : y0 + 1 ≤ y
    · have e : y - y0 = (y - (y0 + 1)) + 1 := by omega
      have hle' : y0 ≤ y := by omega
      simp [hy, hle, hle', e]
    · have hle' : ¬ y0 ≤ y := by omega
      simp [hy, hle, hle']

theorem spriteBitAt_above (octets : List Byte) (x0 y0 x y : Nat) (h : y < y0) :
    spriteBitAt octets x0 y0 x y = false := by
  have : ¬ y0 ≤ y := by omega
  simp [spriteBitAt, this]

/-- The pixels after the row loop of `DXYN` (44_display.md R204). -/
theorem drawSprite_get (x0 : Fin 64) (octets : List Byte) : ∀ (row : Nat) (d : Display) (x : Fin 64) (y : Fin 32),
    (drawSprite x0 octets row d).1.get x y = (d.get x y ^^ spriteBitAt octets x0.val row x.val y.val) := by
  induction octets with
  | nil => intro row d x y; simp [drawSprite, spriteBitAt_nil]
  | cons octet octets ih =>
    intro row d x y
    unfold drawSprite
    by_cases h : row < 32
    · rw [dif_pos h, spriteBitAt_cons]
      simp only [ih, drawRow_get]
      by_cases hy : y = ⟨row, h⟩
      · subst hy
        rw [spriteBitAt_above octets x0.val (row + 1) x.val row (by omega)]
        simp
      · have hne : y.val ≠ row := fun e => hy (Fin.ext e)
        simp [hy, hne]
    · rw [dif_neg h, ih, spriteBitAt_cons]
      have hne : y.val ≠ row := by omega
      simp [hne]

/-- The collision of the row loop of `DXYN` (44_display.md R204): some set pixel meets a set bit. -/
theorem drawSprite_collided (x0 : Fin 64) (octets : List Byte) : ∀ (row : Nat) (d : Display),
    (drawSprite x0 octets row d).2 = true ↔
      ∃ (x : Fin 64) (y : Fin 32), spriteBitAt octets x0.val row x.val y.val = true ∧ d.get x y = true := by
  induction octets with
  | nil => intro row d; simp [drawSprite, spriteBitAt_nil]
  | cons octet octets ih =>
    intro row d
    unfold drawSprite
    by_cases h : row < 32
    · rw [dif_pos h]
      simp only [Bool.or_eq_true, ih, drawRow_collided, drawRow_get]
      constructor
      · rintro (⟨x, h1, h2, h3, h4⟩ | ⟨x, y, hb, hd⟩)
        · refine ⟨x, ⟨row, h⟩, ?_, h4⟩
          rw [spriteBitAt_cons]; simp [h1, h2, h3]
        · have hy : y ≠ ⟨row, h⟩ := by
            rintro rfl
            rw [spriteBitAt_above octets x0.val (row + 1) x.val row (by omega)] at hb
            exact absurd hb (by decide)
          refine ⟨x, y, ?_, by simpa [hy] using hd⟩
          rw [spriteBitAt_cons, hb]; simp
      · rintro ⟨x, y, hb, hd⟩
        rw [spriteBitAt_cons] at hb
        by_cases hy : y = ⟨row, h⟩
        · subst hy
          rw [spriteBitAt_above octets x0.val (row + 1) x.val row (by omega)] at hb
          simp at hb
          exact .inl ⟨x, hb.1.1, hb.1.2, hb.2, hd⟩
        · have hne : y.val ≠ row := fun e => hy (Fin.ext e)
          right
          refine ⟨x, y, by simpa [hne] using hb, by simpa [hy] using hd⟩
    · rw [dif_neg h, ih]
      refine exists_congr fun x => exists_congr fun y => ?_
      have hne : y.val ≠ row := by omega
      rw [spriteBitAt_cons]; simp [hne]

/-- The records of `read` (44_display.md R202): the pixels of the clipped rectangle, each with its
value. -/
theorem Display.mem_region (d : Display) (x y w h : Nat) (p : Pixel) :
    p ∈ d.region x y w h ↔
      (x ≤ p.x.val ∧ p.x.val < x + w) ∧ (y ≤ p.y.val ∧ p.y.val < y + h) ∧ p.value = d.get p.x p.y := by
  unfold Display.region
  simp only [List.mem_flatMap, List.mem_filter, List.mem_map, List.mem_finRange, true_and, decide_eq_true_eq]
  constructor
  · rintro ⟨r, hr, c, hc, rfl⟩; exact ⟨hc, hr, rfl⟩
  · rintro ⟨hc, hr, hv⟩
    refine ⟨p.y, hr, p.x, hc, ?_⟩
    obtain ⟨px, py, pv⟩ := p
    simp at hv ⊢; exact hv.symm

end Sys2Proof.Machine
end

