-- ==== Sys2Proof/Tests/Slice0.lean ====
section
/-! SUPPORT. The model's own tests: ill-formed terms refused, one word per constructor decoded, one-step
tests whose results come from 95_test_vectors.md, and a witness for every statement that has hypotheses. -/

namespace Sys2Proof.Tests
open Sys2Proof Sys2Proof.Machine

/-! ### WellFormed: a term for each check -/

/-- 0x00E0 is `CLS`, not `0NNN`. -/
theorem test_wf_refuses_cls_as_sys : (Instr.sys 0x0E0#12).notCls = false ∧ ¬ (Instr.sys 0x0E0#12).WellFormed := by
  decide

/-- 0x00EE is `RET`, not `0NNN`. -/
theorem test_wf_refuses_ret_as_sys : (Instr.sys 0x0EE#12).notRet = false ∧ ¬ (Instr.sys 0x0EE#12).WellFormed := by
  decide

/-- The neighbours of the two are well-formed. -/
theorem test_wf_accepts_neighbours : (Instr.sys 0x0E1#12).WellFormed ∧ (Instr.sys 0x0EF#12).WellFormed ∧
    (Instr.sys 0x000#12).WellFormed ∧ (Instr.sys 0x1E0#12).WellFormed := by
  decide

/-! ### Decode: a word of each row, written out from the table's "encoding" column -/

theorem test_decode_group0 :
    decodeWord 0b0000000011100000#16 = .ok .cls ∧ decodeWord 0b0000000011101110#16 = .ok .ret ∧
    decodeWord 0b0000101010111100#16 = .ok (.sys 0xABC#12) ∧ decodeWord 0x0000#16 = .ok (.sys 0x000#12) :=
  ⟨rfl, rfl, rfl, rfl⟩

theorem test_decode_addresses :
    decodeWord 0b0001101010111100#16 = .ok (.jp 0xABC#12) ∧
    decodeWord 0b0010101010111100#16 = .ok (.call 0xABC#12) ∧
    decodeWord 0b1010101010111100#16 = .ok (.ldI 0xABC#12) ∧
    decodeWord 0b1011101010111100#16 = .ok (.jpV0 0xABC#12) :=
  ⟨rfl, rfl, rfl, rfl⟩

theorem test_decode_immediates :
    decodeWord 0b0011101010111100#16 = .ok (.seImm 0xA 0xBC#8) ∧
    decodeWord 0b0100101010111100#16 = .ok (.sneImm 0xA 0xBC#8) ∧
    decodeWord 0b0110101010111100#16 = .ok (.ldImm 0xA 0xBC#8) ∧
    decodeWord 0b0111101010111100#16 = .ok (.addImm 0xA 0xBC#8) ∧
    decodeWord 0b1100101010111100#16 = .ok (.rnd 0xA 0xBC#8) :=
  ⟨rfl, rfl, rfl, rfl, rfl⟩

theorem test_decode_register_pairs :
    decodeWord 0b0101101010110000#16 = .ok (.seReg 0xA 0xB) ∧
    decodeWord 0b1001101010110000#16 = .ok (.sneReg 0xA 0xB) ∧
    decodeWord 0b1101101010111100#16 = .ok (.drw 0xA 0xB 0xC) :=
  ⟨rfl, rfl, rfl⟩

theorem test_decode_alu :
    decodeWord 0b1000101010110000#16 = .ok (.ldReg 0xA 0xB) ∧
    decodeWord 0b1000101010110001#16 = .ok (.orReg 0xA 0xB) ∧
    decodeWord 0b1000101010110010#16 = .ok (.andReg 0xA 0xB) ∧
    decodeWord 0b1000101010110011#16 = .ok (.xorReg 0xA 0xB) ∧
    decodeWord 0b1000101010110100#16 = .ok (.addReg 0xA 0xB) ∧
    decodeWord 0b1000101010110101#16 = .ok (.sub 0xA 0xB) ∧
    decodeWord 0b1000101010110110#16 = .ok (.shr 0xA 0xB) ∧
    decodeWord 0b1000101010110111#16 = .ok (.subn 0xA 0xB) ∧
    decodeWord 0b1000101010111110#16 = .ok (.shl 0xA 0xB) :=
  ⟨rfl, rfl, rfl, rfl, rfl, rfl, rfl, rfl, rfl⟩

theorem test_decode_low_byte :
    decodeWord 0b1110101010011110#16 = .ok (.skp 0xA) ∧ decodeWord 0b1110101010100001#16 = .ok (.sknp 0xA) ∧
    decodeWord 0b1111101000000111#16 = .ok (.ldVxDt 0xA) ∧ decodeWord 0b1111101000001010#16 = .ok (.ldVxK 0xA) ∧
    decodeWord 0b1111101000010101#16 = .ok (.ldDtVx 0xA) ∧ decodeWord 0b1111101000011000#16 = .ok (.ldStVx 0xA) ∧
    decodeWord 0b1111101000011110#16 = .ok (.addI 0xA) ∧ decodeWord 0b1111101000101001#16 = .ok (.ldF 0xA) ∧
    decodeWord 0b1111101000110011#16 = .ok (.ldB 0xA) ∧ decodeWord 0b1111101001010101#16 = .ok (.stRegs 0xA) ∧
    decodeWord 0b1111101001100101#16 = .ok (.ldRegs 0xA) :=
  ⟨rfl, rfl, rfl, rfl, rfl, rfl, rfl, rfl, rfl, rfl, rfl⟩

/-- A word of each case of R77, with its neighbours below and above the legal values. -/
theorem test_decode_rejects :
    decodeWord 0x5001#16 = .error (.unrecognized 0x5001#16) ∧
    decodeWord 0x900F#16 = .error (.unrecognized 0x900F#16) ∧
    decodeWord 0x8008#16 = .error (.unrecognized 0x8008#16) ∧
    decodeWord 0x800D#16 = .error (.unrecognized 0x800D#16) ∧
    decodeWord 0x800F#16 = .error (.unrecognized 0x800F#16) ∧
    decodeWord 0xE09D#16 = .error (.unrecognized 0xE09D#16) ∧
    decodeWord 0xE0A2#16 = .error (.unrecognized 0xE0A2#16) ∧
    decodeWord 0xF000#16 = .error (.unrecognized 0xF000#16) ∧
    decodeWord 0xF075#16 = .error (.unrecognized 0xF075#16) :=
  ⟨rfl, rfl, rfl, rfl, rfl, rfl, rfl, rfl, rfl⟩

/-- The high-order byte stands first (20_memory.md R52); one byte is no instruction (R70). -/
theorem test_decode_bytes : decodeBytes [0x6A#8, 0x2B#8, 0xFF#8] = .ok (.ldImm 0xA 0x2B#8, [0xFF#8]) ∧
    decodeBytes [0x6A#8] = .error .truncated ∧ decodeTableWord 16 0x6A2B = some (.ldImm 0xA 0x2B#8) :=
  ⟨rfl, rfl, rfl⟩

/-! ### One step on a small state -/

/-- The state after load, with one cycle to come: both readings 0, the random byte 0xAB. -/
def start : State := { State.reset with calls := [.cycle ⟨0, 0, 0xAB#8⟩] }

/-- Some registers set. -/
def regs (s : State) (l : List (Reg × Byte)) : State := l.foldl (fun s p => s.setReg p.1 p.2) s

/-- Some bytes of memory set. -/
def bytes (s : State) (a : Nat) (l : List Byte) : State := s.setMem (s.mem.writeBytes a l)

/-- What f sees after one step of s with word w at `PC`. -/
def after {α : Type} (w : Nat) (s : State) (f : State → α) : Option α :=
  match step (s.withFetchWord 16 w) with
  | .next t => some (f t)
  | .fault _ => none
  | .refused _ => none

/-- T1.1 -/
theorem test_jp : after 0x1234 start (·.pc) = some 0x0234#16 := rfl

/-- T1.3 -/
theorem test_call : after 0x2210 { start with pc := 0x204#16 } (fun t => (t.pc, t.stack)) =
    some (0x210#16, [0x206#16]) := rfl

/-- T1.4 -/
theorem test_ret : after 0x00EE { start with stack := [0x206#16, 0x999#16] } (fun t => (t.pc, t.stack)) =
    some (0x206#16, [0x999#16]) := rfl

/-- T1.5 -/
theorem test_ret_empty : after 0x00EE start (fun t => (t.pc, t.status)) =
    some (0x200#16, .faulted (.stackUnderflow 0x200#16)) := rfl

/-- T1.7 -/
theorem test_jpV0 : after 0xBFFF (regs start [(0, 0xFF#8)]) (·.pc) = some 0x10FE#16 := rfl

/-- T1.8: `V3`, the register of the second nibble, is ignored. -/
theorem test_jpV0_reads_v0 : after 0xB300 (regs start [(3, 0x55#8)]) (·.pc) = some 0x0300#16 := rfl

/-- T1.9, T1.10 -/
theorem test_seImm : after 0x3F01 (regs start [(15, 1#8)]) (·.pc) = some 0x204#16 ∧
    after 0x3F02 (regs start [(15, 1#8)]) (·.pc) = some 0x202#16 := ⟨rfl, rfl⟩

/-- T1.11, T1.12 -/
theorem test_sneImm : after 0x4F01 (regs start [(15, 1#8)]) (·.pc) = some 0x202#16 ∧
    after 0x4F02 (regs start [(15, 1#8)]) (·.pc) = some 0x204#16 := ⟨rfl, rfl⟩

/-- T1.13 -/
theorem test_seReg : after 0x5120 (regs start [(1, 3#8), (2, 3#8)]) (·.pc) = some 0x204#16 := rfl

/-- T1.15, T1.16 -/
theorem test_sneReg : after 0x9120 (regs start [(1, 3#8), (2, 4#8)]) (·.pc) = some 0x204#16 ∧
    after 0x9120 (regs start [(1, 3#8), (2, 3#8)]) (·.pc) = some 0x202#16 := ⟨rfl, rfl⟩

/-- T1.14 -/
theorem test_unrecognized : after 0x5121 start (fun t => (t.pc, t.status)) =
    some (0x200#16, .faulted (.unrecognizedInstruction 0x5121#16)) := rfl

/-- T1.18 -/
theorem test_sys : after 0x01E0 start (fun t => (t.pc, t.reply)) =
    some (0x200#16, .fault (.op0Unspecified 0x01E0#16)) := rfl

/-- T1.20 -/
theorem test_fetch_fault : (match step { start with pc := 0xFFF#16 } with
    | .next t => some t.status | .fault _ => none | .refused _ => none) =
    some (.faulted (.fetchOutOfBounds 0xFFF#16)) := rfl

/-- T2.1 -/
theorem test_ldImm : after 0x6A42 start (fun t => (t.reg 0xA, t.pc)) = some (0x42#8, 0x202#16) := rfl

/-- T2.2, T2.3 -/
theorem test_addImm : after 0x70FF (regs start [(0, 1#8)]) (fun t => (t.reg 0, t.reg 15)) = some (0#8, 0#8) ∧
    after 0x7FFF (regs start [(15, 1#8)]) (·.reg 15) = some 0#8 := ⟨rfl, rfl⟩

/-- R153's example -/
theorem test_ldReg : after 0x8120 (regs start [(2, 0x11#8)]) (fun t => (t.reg 1, t.reg 2)) =
    some (0x11#8, 0x11#8) := rfl

/-- T2.5 -/
theorem test_orReg : after 0x8011 (regs start [(0, 0xF0#8), (1, 0x0F#8), (15, 7#8)]) (fun t => (t.reg 0, t.reg 15)) =
    some (0xFF#8, 7#8) := rfl

/-- T2.6 -/
theorem test_andReg : after 0x8012 (regs start [(0, 0xF0#8), (1, 0x3C#8), (15, 7#8)]) (fun t => (t.reg 0, t.reg 15)) =
    some (0x30#8, 7#8) := rfl

/-- T2.7 -/
theorem test_xorReg : after 0x8013 (regs start [(0, 0xFF#8), (1, 0x0F#8), (15, 7#8)]) (fun t => (t.reg 0, t.reg 15)) =
    some (0xF0#8, 7#8) := rfl

/-- E1, third row -/
theorem test_addReg : after 0x8014 (regs start [(0, 0x80#8), (1, 0x80#8)]) (fun t => (t.reg 0, t.reg 15)) =
    some (0#8, 1#8) := rfl

/-- T2.9: `VF` is the addend. -/
theorem test_addReg_from_vf : after 0x81F4 (regs start [(1, 0x10#8), (15, 1#8)]) (fun t => (t.reg 1, t.reg 15)) =
    some (0x11#8, 0#8) := rfl

/-- E2, third row -/
theorem test_sub : after 0x8125 (regs start [(1, 3#8), (2, 5#8)]) (fun t => (t.reg 1, t.reg 15)) =
    some (0xFE#8, 0#8) := rfl

/-- T2.11: the flag, not the difference, stays in `VF`. -/
theorem test_sub_to_vf : after 0x8F15 (regs start [(15, 5#8), (1, 7#8)]) (·.reg 15) = some 0#8 := rfl

/-- T2.14 -/
theorem test_shr : after 0x8126 (regs start [(1, 0x77#8), (2, 1#8)]) (fun t => (t.reg 1, t.reg 2, t.reg 15)) =
    some (0#8, 1#8, 1#8) := rfl

/-- T2.15 -/
theorem test_shr_from_vf : after 0x81F6 (regs start [(15, 0x81#8)]) (fun t => (t.reg 1, t.reg 15)) =
    some (0x40#8, 1#8) := rfl

/-- E2, fourth and fifth row -/
theorem test_subn : after 0x8127 (regs start [(1, 5#8), (2, 3#8)]) (fun t => (t.reg 1, t.reg 15)) =
      some (0xFE#8, 0#8) ∧
    after 0x8127 (regs start [(1, 3#8), (2, 5#8)]) (fun t => (t.reg 1, t.reg 15)) = some (2#8, 1#8) := ⟨rfl, rfl⟩

/-- T2.20 -/
theorem test_shl : after 0x812E (regs start [(1, 0x77#8), (2, 0x81#8)]) (fun t => (t.reg 1, t.reg 15)) =
    some (2#8, 1#8) := rfl

/-- T2.23 -/
theorem test_shl_to_vf : after 0x8FFE (regs start [(15, 0x40#8)]) (·.reg 15) = some 0#8 := rfl

/-- T2.26 -/
theorem test_rnd : after 0xC0F0 start (·.reg 0) = some 0xA0#8 := rfl

/-- T3.1 -/
theorem test_ldI : after 0xAFFF start (·.i) = some 0x0FFF#16 := rfl

/-- T3.2 -/
theorem test_addI : after 0xF01E { regs start [(0, 2#8), (15, 9#8)] with i := 0xFFFF#16 } (fun t => (t.i, t.reg 15)) =
    some (1#16, 9#8) := rfl

/-- T3.4, T3.5 -/
theorem test_ldF : after 0xFA29 (regs start [(10, 0xAB#8)]) (·.i) = some 0x37#16 ∧
    after 0xF029 (regs start [(0, 0xFF#8)]) (·.i) = some 0x4B#16 := ⟨rfl, rfl⟩

/-- E3 -/
theorem test_ldB : after 0xFA33 { regs start [(10, 0xEA#8)] with i := 0x300#16 }
    (fun t => (t.mem.readBytes 0x300 4, t.i)) = some ([2#8, 3#8, 4#8, 0#8], 0x300#16) := rfl

/-- T3.8 -/
theorem test_ldB_fault : after 0xF033 { regs start [(0, 7#8)] with i := 0xFFE#16 }
    (fun t => (t.status, t.mem.readBytes 0xFFE 2)) = some (.faulted (.bcdOutOfBounds 0xFFE#16), [0#8, 0#8]) := rfl

/-- E4, step 1 -/
theorem test_stRegs : after 0xF255 { regs start [(0, 10#8), (1, 20#8), (2, 30#8), (3, 40#8)] with i := 0x300#16 }
    (fun t => (t.mem.readBytes 0x300 4, t.i)) = some ([10#8, 20#8, 30#8, 0#8], 0x303#16) := rfl

/-- T3.11 -/
theorem test_stRegs_fault : after 0xF155 { start with i := 0xFFFF#16 } (fun t => (t.status, t.i)) =
    some (.faulted (.memoryOutOfBounds 0xF155#16 0xFFFF), 0xFFFF#16) := rfl

/-- T3.13 -/
theorem test_ldRegs : after 0xF365 { bytes start 0xFFC [1#8, 2#8, 3#8, 4#8] with i := 0xFFC#16 }
    (fun t => (t.reg 0, t.reg 3, t.reg 4, t.i)) = some (1#8, 4#8, 0#8, 0x1000#16) := rfl

/-- T3.12 -/
theorem test_ldRegs_fault : after 0xF565 { start with i := 0xFFC#16 } (fun t => (t.status, t.reg 0)) =
    some (.faulted (.memoryOutOfBounds 0xF565#16 0x1000), 0#8) := rfl

/-- T4.1 -/
theorem test_cls : after 0x00E0 { start with d := start.d.put 5 6 true } (fun t => (t.d.get 5 6, t.events)) =
    some (false, [.clearScreen]) := rfl

/-- T4.8: the coordinates use the old `VF`. -/
theorem test_drw : after 0xDFF1 { bytes (regs start [(15, 2#8)]) 0x300 [0x80#8] with i := 0x300#16 }
    (fun t => (t.d.get 2 2, t.d.get 0 0, t.reg 15)) = some (true, false, 0#8) := rfl

/-- E5, second cycle: the eight pixels were set. -/
theorem test_drw_collides : after 0xD011 { bytes start 0x300 [0xFF#8] with
      i := 0x300#16, d := (drawRow start.d 0 0 0xFF#8).1 }
    (fun t => (t.d.get 0 0, t.d.get 7 0, t.reg 15)) = some (false, false, 1#8) := rfl

/-- T5.2, T5.3 -/
theorem test_skp : after 0xE29E ((regs start [(2, 0x15#8)]).setKey 5 true) (·.pc) = some 0x204#16 ∧
    after 0xE29E (regs start [(2, 5#8)]) (·.pc) = some 0x202#16 := ⟨rfl, rfl⟩

/-- T5.4, T5.5 -/
theorem test_sknp : after 0xE2A1 (regs start [(2, 0xC#8)]) (·.pc) = some 0x204#16 ∧
    after 0xE2A1 ((regs start [(2, 0xC#8)]).setKey 0xC true) (·.pc) = some 0x202#16 := ⟨rfl, rfl⟩

/-- T5.9: a key held before the capture does not count. -/
theorem test_ldVxK_arms : after 0xF10A (start.setKey 7 true) (fun t => (t.cap, t.pc, t.reg 1)) =
    some (.capturing, 0x200#16, 0#8) := rfl

/-- E7, step 5 -/
theorem test_ldVxK_delivers : after 0xF30A (start.setCap (.captured 5)) (fun t => (t.cap, t.pc, t.reg 3)) =
    some (.idle, 0x202#16, 5#8) := rfl

/-- T5.8 -/
theorem test_keyDown_captured : (keyDown 3 true (start.setCap (.captured 5))).cap = .captured 5 ∧
    (keyDown 3 true (start.setCap (.captured 5))).events = [] := ⟨rfl, rfl⟩

/-- E7, steps 2 and 4 -/
theorem test_keys : (keyDown 5 false (start.setCap .capturing)).events = [.playTone captureTone] ∧
    (keyUp 5 (start.setCap (.captured 5))).cap = .captured 5 := ⟨rfl, rfl⟩

/-- T6.1 -/
theorem test_ldVxDt : after 0xF107 (regs start [(1, 9#8)]) (·.reg 1) = some 0#8 := rfl

/-- T6.2 -/
theorem test_ldDtVx : after 0xF115 (regs start [(1, 0x3C#8)]) (fun t => (t.dtArmed, t.dtCount, t.dtStamp)) =
    some (true, 0x3C#8, 0) := rfl

/-- T6.3 and T6.5, the ticks given: 30 of 60 in half a second, and more than are left. -/
theorem test_dtTick : ((start.dtStart 60#8 0).dtTick 30 (1 / 2)).dtValue = 30#8 ∧
    ((start.dtStart 60#8 0).dtTick 30 (1 / 2)).dtStamp = 1 / 2 ∧
    ((start.dtStart 29#8 (1 / 2)).dtTick 90 2).dtArmed = false := ⟨rfl, rfl, rfl⟩

/-- E8, case a: after one second a countdown of 60 reads 0, for every admitted conversion. -/
theorem test_dtUpdate : ((start.dtStart 60#8 0).dtUpdate 1).dtValue = 0#8 := by
  have h : 60 ≤ ticks 0 1 := sixty_le_ticks 0 1 (by decide +kernel)
  simp [State.dtUpdate, State.dtTick, State.dtStart, State.dtValue, h]

/-- T6.7, T6.9 -/
theorem test_ldStVx : after 0xF418 (regs start [(4, 0x1E#8)]) (·.events) = some [.playTone (1 / 2)] ∧
    after 0xF418 (regs start [(4, 0xFF#8)]) (·.events) = some [.playTone (17 / 4)] := by decide +kernel

/-- T7.6 -/
theorem test_load : (load (some [0x12#8, 0#8]) { State.reset with
      status := .faulted (.stackUnderflow 0#16), cap := .captured 3 }).status = .running ∧
    (load (some [0x12#8, 0#8]) State.reset).mem = [(0x200, 0x12#8)] := ⟨rfl, rfl⟩

/-- What a free value may be does not matter to a fetch that reads it: the font's bytes are memory. -/
theorem test_font_is_memory : Memory.read State.reset.mem 79 = Config.font 79 ∧
    Memory.read State.reset.mem 80 = 0#8 := ⟨rfl, rfl⟩

/-! ### Short runs (R110) -/

/-- A cycle with both readings 0 and the random byte 0. -/
def tick : Call := .cycle ⟨0, 0, 0#8⟩

/-- What f sees at the end of a run, where the run ends. -/
def atEnd {α : Type} (r : RunResult) (f : RunPoint → α) : Option α :=
  match r with
  | .ended p => some (f p)
  | .unended _ => none
  | .refused _ _ => none
  | .stopped _ _ => none
  | .notLoaded _ => none

/-- The program of E7: the run ends at 0x202 after 3 cycles, with the tone of the `key_down` between them. -/
theorem test_run_to_address :
    atEnd (runProgram [0xF3#8, 0x0A#8] [tick, .keyDown 5 false, tick, .keyUp 5, tick] (.pcAt 0x202#16) 9)
      (fun p => (p.cycles, p.events, p.state.reg 3)) = some (3, [.playTone captureTone], 5#8) := rfl

/-- The program of P6: the second cycle faults, and a run of three cycles is refused, not ended. -/
theorem test_run_to_count :
    atEnd (runProgram [0xAF#8, 0xFE#8, 0xF0#8, 0x33#8] [tick, tick, tick] (.cycles 2) 9)
      (fun p => (p.state.pc, p.events, p.state.status)) =
        some (0x202#16, [], .faulted (.bcdOutOfBounds 0xFFE#16)) ∧
    atEnd (runProgram [0xAF#8, 0xFE#8, 0xF0#8, 0x33#8] [tick, tick, tick] (.cycles 3) 9)
      (·.cycles) = none := ⟨rfl, rfl⟩

/-! ### Witnesses: every statement's hypotheses can be met, at the boundary of each clause -/

/-- A capture is on and the word at `PC` is `F30A`. -/
def waiting : State := (start.setCap .capturing).withFetchWord 16 0xF30A

theorem witness_DecodeEncodeRoundTrip : (Instr.sys 0xFFF#12).WellFormed ∧ (Instr.drw 15 15 15).WellFormed := by
  decide

theorem witness_EncodeDecodeRoundTrip : decodeWord 0x0000#16 = .ok (.sys 0x000#12) ∧
    decodeWord 0xDFFF#16 = .ok (.drw 15 15 15) := ⟨rfl, rfl⟩

theorem witness_IllegalWordsAreRejected : decodeWord 0xFFFF#16 = .error (.unrecognized 0xFFFF#16) := rfl

/-- The last address a fetch can start at. -/
theorem witness_StepRunsDecodedInstruction :
    let s := State.withFetchWord { start with pc := 0xFFE#16 } 16 0x6A2B
    s.status = .running ∧ s.cycleNext ∧ s.pc.toNat + 1 < 4096 ∧ s.pc.toNat = 0xFFE ∧
    decodeBytes [s.mem.read s.pc.toNat, s.mem.read (s.pc.toNat + 1)] = .ok (.ldImm 0xA 0x2B#8, []) :=
  ⟨rfl, rfl, by decide, rfl, rfl⟩

theorem witness_CycleOpening : start.calls = .cycle ⟨0, 0, 0xAB#8⟩ :: [] ∧ State.reset.calls = [] := ⟨rfl, rfl⟩

theorem witness_CycleUpdatesTimerFirst :
    start.dtArmed = false ∧
    (let s : State := { start with dtArmed := true, dtCount := 60#8, calls := [.cycle ⟨1, 1, 0#8⟩] }
     s.dtArmed = true ∧ s.dtCount.toNat ≤ 60 ∧ s.dtStamp + 1 ≤ s.startCycle.inp.tUpdate) := by
  refine ⟨rfl, rfl, by decide, ?_⟩
  rw [State.startCycle_inp]
  decide +kernel

theorem witness_FetchAndDecodeFaults :
    (let s : State := { start with pc := 0xFFF#16 }
     s.status = .running ∧ s.cycleNext ∧ 4096 ≤ s.pc.toNat + 1) ∧
    (let s := State.withFetchWord { start with pc := 0xFFE#16 } 16 0x5121
     s.status = .running ∧ s.cycleNext ∧ s.pc.toNat + 1 < 4096 ∧
     (0x5121#16).toNat = (s.mem.read s.pc.toNat).toNat * 256 + (s.mem.read (s.pc.toNat + 1)).toNat ∧
     decodeWord 0x5121#16 = .error (.unrecognized 0x5121#16)) :=
  ⟨⟨rfl, rfl, by decide⟩, rfl, rfl, by decide, rfl, rfl⟩

theorem witness_StepStopsOnlyOnRefusal :
    (start.cycleNext ∧ start.status = .running) ∧
    (State.unloaded.cycleNext ∧ State.unloaded.status = .unloaded) ∧
    (let s : State := { start with status := .faulted (.stackUnderflow 0x200#16) }
     s.cycleNext ∧ s.status = .faulted (.stackUnderflow 0x200#16)) ∧
    ¬ State.cycleNext { start with calls := [.keyUp 0] } :=
  ⟨⟨rfl, rfl⟩, ⟨trivial, rfl⟩, ⟨rfl, rfl⟩, by simp [State.cycleNext, Call.isCycle]⟩

theorem witness_HostCallsRunBetweenCycles :
    State.calls { start with calls := [.keyDown 5 true] } = .keyDown 5 true :: [] ∧
    State.calls { start with calls := [.keyUp 5] } = .keyUp 5 :: [] ∧
    State.calls { start with calls := [.load none] } = .load none :: [] := ⟨rfl, rfl, rfl⟩

theorem witness_RetPopsOrFaults : State.stack { start with stack := [0xFFFF#16] } = 0xFFFF#16 :: [] ∧
    start.stack = [] := ⟨rfl, rfl⟩

theorem witness_RegisterSkips : (1#4 : BitVec 4) ≠ 0#4 ∧ (15#4 : BitVec 4) ≠ 0#4 := by decide

theorem witness_SysFaults : (0x000#12 : Addr12) ≠ 0x0E0#12 ∧ (0x000#12 : Addr12) ≠ 0x0EE#12 ∧
    (0x0E1#12 : Addr12) ≠ 0x0E0#12 ∧ (0x0ED#12 : Addr12) ≠ 0x0EE#12 := by decide

/-- For every statement with a clause "any other register": `VE` beside x = 0, and x other than F. -/
theorem witness_other_registers : (14 : Reg) ≠ 0 ∧ (14 : Reg) ≠ 15 ∧ (0 : Reg) ≠ 15 := by decide

theorem witness_BcdStoresDigitsOrFaults :
    State.i { start with i := 0xFFD#16 } = 0xFFD#16 ∧ (0xFFD#16 : Word).toNat + 2 < 4096 ∧
    4096 ≤ (0xFFE#16 : Word).toNat + 2 := by decide +kernel

/-- The last addresses of the shortest and of the longest range. -/
theorem witness_register_ranges :
    (let s : State := { start with i := 0xFFF#16 }; s.i.toNat + (0 : Reg).val < 4096) ∧
    (let s : State := { start with i := 0xFF0#16 }; s.i.toNat + (15 : Reg).val < 4096) := by decide

theorem witness_RangesOutsideMemoryFault :
    (let s : State := { start with i := 0x1000#16 }; 4096 ≤ s.i.toNat + (0 : Reg).val) ∧
    (let s : State := { start with i := 0xFF1#16 }; 4096 ≤ s.i.toNat + (15 : Reg).val) ∧
    (let s : State := { start with i := 0x1000#16 }
     0 < (1 : Fin 16).val ∧ 4096 < s.i.toNat + (1 : Fin 16).val) ∧
    (let s : State := { start with i := 0xFF2#16 }
     0 < (15 : Fin 16).val ∧ 4096 < s.i.toNat + (15 : Fin 16).val) := by decide

theorem witness_StoreIntoCodeIsFetched :
    let s : State := { start with i := 0xFFE#16 }
    s.i.toNat + (1 : Reg).val < 4096 ∧ (0 : Reg) < 1 ∧
    ∃ t, exec (.stRegs 1) s = .next t ∧ State.pc { t with pc := 0xFFE#16 } = 0xFFE#16 ∧
      (0xFFE#16 : Word).toNat = s.i.toNat + (0 : Reg).val :=
  ⟨by decide, by decide, _, rfl, rfl, rfl⟩

theorem witness_draw_ranges :
    (let s : State := { start with i := 0x5000#16 }
     (0 : Fin 16).val = 0 ∨ s.i.toNat + (0 : Fin 16).val ≤ 4096) ∧
    (let s : State := { start with i := 0xFF1#16 }
     (15 : Fin 16).val = 0 ∨ s.i.toNat + (15 : Fin 16).val ≤ 4096) := by decide

theorem witness_DrawTwiceRestores :
    let s : State := { start with i := 0x300#16 }
    ((1 : Fin 16).val = 0 ∨ s.i.toNat + (1 : Fin 16).val ≤ 4096) ∧
    ∃ t u, exec (.drw 0 0 1) s = .next t ∧ exec (.drw 0 0 1) { t with v := s.v } = .next u :=
  ⟨by decide, _, _, rfl, rfl⟩

theorem witness_KeySkips : (5 : Key).val = ((regs start [(2, 0xF5#8)]).reg 2).toNat % 16 := rfl

theorem witness_KeyWaitFollowsCapture : start.cap = .idle ∧ (start.setCap .capturing).cap = .capturing ∧
    (let s := (start.setCap (.captured 15)).setKey 15 true; s.cap = .captured 15 ∧ s.held 15 = true) ∧
    (let s := start.setCap (.captured 15); s.cap = .captured 15 ∧ s.held 15 = false) := by decide +kernel

theorem witness_KeyDownCaptures :
    (let s := start.setCap .capturing; s.cap = .capturing ∧ s.held 3 = false) ∧
    (let s := (start.setCap .capturing).setKey 3 true; s.cap = .capturing ∧ ¬ s.held 3 = false) ∧
    ¬ start.cap = .capturing := by decide +kernel

theorem witness_PressAndReleaseDeliverKey :
    let s : State := { waiting with calls :=
      [.keyDown 5 false, .cycle ⟨0, 0, 0#8⟩, .keyUp 5, .cycle ⟨0, 0, 0#8⟩] }
    s.status = .running ∧ s.cap = .capturing ∧ s.held 5 = false ∧ s.fetch = some 0xF30A#16 ∧
    decodeWord 0xF30A#16 = .ok (.ldVxK 3) ∧
    s.calls = .keyDown 5 false :: .cycle ⟨0, 0, 0#8⟩ :: .keyUp 5 :: .cycle ⟨0, 0, 0#8⟩ :: [] :=
  ⟨rfl, rfl, rfl, rfl, rfl, rfl⟩

/-- Both hangs of R227: no press during a capture, though a key is released; no release of the captured
key, though others are pressed and released. -/
theorem witness_KeyWaitWithoutKeysHangs :
    (let s : State := { waiting with calls := [.keyUp 5, .cycle ⟨0, 0, 0#8⟩] }
     s.status = .running ∧ s.WaitsForKey ∧ s.fetch = some 0xF30A#16 ∧
     decodeWord 0xF30A#16 = .ok (.ldVxK 3) ∧ ∀ c ∈ s.calls, c.KeepsWaiting s.cap) ∧
    (let s : State := { (waiting.setCap (.captured 15)).setKey 15 true with
       calls := [.keyDown 0 true, .keyUp 14, .cycle ⟨0, 0, 0#8⟩] }
     s.status = .running ∧ s.WaitsForKey ∧ s.fetch = some 0xF30A#16 ∧
     decodeWord 0xF30A#16 = .ok (.ldVxK 3) ∧ ∀ c ∈ s.calls, c.KeepsWaiting s.cap) := by
  refine ⟨⟨rfl, .inl rfl, rfl, rfl, ?_⟩, ⟨rfl, .inr ⟨15, rfl, rfl⟩, rfl, rfl, ?_⟩⟩
  · rintro c (_ | ⟨_, _ | ⟨_, ⟨⟩⟩⟩)
    · exact fun h => nomatch h
    · trivial
  · rintro c (_ | ⟨_, _ | ⟨_, _ | ⟨_, ⟨⟩⟩⟩⟩)
    · exact fun h => nomatch h
    · exact fun h => absurd (Capture.captured.inj h) (by decide)
    · trivial

theorem witness_FailedLoadChangesNothing : (load none start).reply ≠ .ok ∧ (load (some []) start).reply ≠ .ok := by
  decide +kernel

/-- The shortest and the longest program that load, and the shortest that is too long (E6). -/
theorem witness_LoadResetsWholeMachine : ([0x12#8] : List Byte) ≠ [] ∧ ([0x12#8] : List Byte).length ≤ 3584 ∧
    (List.replicate 3584 0x11#8).length ≤ 3584 ∧ List.replicate 3584 0x11#8 ≠ [] ∧
    3584 < (List.replicate 3585 0x22#8).length := by
  refine ⟨by decide, by decide, ?_, List.ne_nil_of_length_pos ?_, ?_⟩ <;> rw [List.length_replicate] <;> decide

/-- The invariant holds in a state that a step leaves, with no capture on and in a key wait. -/
theorem witness_StepKeepsInvariant :
    (start.Inv ∧ ∃ t, step start = .next t) ∧ (waiting.Inv ∧ ∃ t, step waiting = .next t) := by
  refine ⟨⟨⟨rfl, fun _ => rfl, fun h => absurd rfl h⟩, _, rfl⟩,
    ⟨show waiting.mem.wf = true by decide +kernel, fun _ => rfl, ?_⟩, _, rfl⟩
  exact fun _ => ⟨0xF30A#16, 3, rfl, rfl⟩

theorem witness_CycleEmitsAtMostOneEvent : start.cycleNext ∧
    (∃ t, step (start.withFetchWord 16 0x00E0) = .next t) ∧
    ∃ t, step start = .next t ∧ t.status = .faulted (.op0Unspecified 0#16) := ⟨rfl, ⟨_, rfl⟩, _, rfl, rfl⟩

theorem witness_FaultsArePrecise : start.cycleNext ∧
    ∃ t, step start = .next t ∧ t.status = .faulted (.op0Unspecified 0#16) := ⟨rfl, _, rfl, rfl⟩

theorem witness_InstructionsKeepAccessMatrix :
    (∃ t, exec (.jp 0x234#12) start = .next t ∧ t.status = start.status) ∧
    writesReg (.jp 0x234#12) 15 = false ∧ writesIndex (.jp 0x234#12) = false ∧
    (∃ t, exec .ret start = .next t ∧ t.status ≠ start.status) ∧ mayFault .ret = true ∧
    writesReg (.ldRegs 14) 15 = false ∧ writesReg (.drw 0 0 1) 14 = false :=
  ⟨⟨_, rfl, rfl⟩, rfl, rfl, ⟨_, rfl, fun h => nomatch h⟩, rfl, rfl, rfl⟩

theorem witness_OnlyStoresWriteMemory : ∃ t, exec (.ldB 0) start = .next t := ⟨_, rfl⟩

/-- A run that ends before its first transaction, and one that ends at its last. -/
theorem witness_RunEndsAtFirstBoundary :
    runUntil (.cycles 0) 0 (RunPoint.start waiting) = .ended (RunPoint.start waiting) ∧
    ∃ q, runUntil (.cycles 2) 2 (RunPoint.start waiting) = .ended q ∧ q.cycles = 2 :=
  ⟨rfl, _, rfl, rfl⟩

/-- A run that is refused at its second transaction, one that is used up, and the two bounds of a load. -/
theorem witness_RefusedAndUnendedRuns :
    (∃ q, runUntil (.cycles 2) 2 (RunPoint.start start) =
      .refused (.cycleAfterFault (.op0Unspecified 0#16)) q ∧ q.cycles = 1) ∧
    (∃ q, runUntil (.cycles 2) 1 (RunPoint.start waiting) = .unended q) ∧
    runProgram [] [] (.cycles 0) 0 = .notLoaded .absentProgram ∧
    (∃ q, runProgram [0x12#8] [] (.cycles 0) 0 = .ended q) ∧
    3584 < (List.replicate 3585 0x22#8).length :=
  ⟨⟨_, rfl, rfl⟩, ⟨_, rfl⟩, rfl, ⟨_, rfl⟩, by rw [List.length_replicate]; decide⟩

theorem witness_CanonicalMemoryIsUnique : Memory.wf [(0x200, 0x12#8), (0xFFF, 1#8)] = true ∧
    Memory.wf [(0xFFF, 1#8), (0x200, 0x12#8)] = false ∧ Memory.wf [(0x200, 0#8)] = false ∧
    Memory.wf [(0x1000, 1#8)] = false := ⟨rfl, rfl, rfl, rfl⟩

end Sys2Proof.Tests
end

section
/-! SUPPORT. The decoder's fields as numbers of the word, and their overlaps (30_encoding.md R71). -/

namespace Sys2Proof

/-- A slice of `l` bits from bit `s` up, as a quotient and remainder of the word's value. -/
theorem toNat_slice {m : Nat} (b : BitVec m) (s l : Nat) :
    (b.extractLsb' s l).toNat = b.toNat / 2 ^ s % 2 ^ l := by
  rw [BitVec.extractLsb'_toNat, Nat.shiftRight_eq_div_pow]

/-! ### The value of each field -/

theorem val_fieldOp (w : Word) : (fieldOp w).val = w.toNat / 4096 := by
  have hslice : (fieldOp w).val = w.toNat / 4096 % 16 := toNat_slice w 12 4
  have hw : w.toNat < 65536 := w.isLt
  omega

theorem val_fieldX (w : Word) : (fieldX w).val = w.toNat / 256 % 16 := toNat_slice w 8 4

theorem val_fieldY (w : Word) : (fieldY w).val = w.toNat / 16 % 16 := toNat_slice w 4 4

theorem val_fieldN (w : Word) : (fieldN w).val = w.toNat % 16 :=
  (toNat_slice w 0 4).trans (congrArg (· % 2 ^ 4) (Nat.div_one w.toNat))

theorem toNat_fieldNN (w : Word) : (fieldNN w).toNat = w.toNat % 256 :=
  (toNat_slice w 0 8).trans (congrArg (· % 2 ^ 8) (Nat.div_one w.toNat))

theorem toNat_fieldNNN (w : Word) : (fieldNNN w).toNat = w.toNat % 4096 :=
  (toNat_slice w 0 12).trans (congrArg (· % 2 ^ 12) (Nat.div_one w.toNat))

/-! ### The overlaps `nn = {y, n}` and `nnn = {x, y, n}` -/

theorem fieldNN_eq_fieldY_fieldN (w : Word) :
    (fieldNN w).toNat = (fieldY w).val * 16 + (fieldN w).val := by
  rw [toNat_fieldNN, val_fieldY, val_fieldN]
  omega

theorem fieldNNN_eq_fieldX_fieldNN (w : Word) :
    (fieldNNN w).toNat = (fieldX w).val * 256 + (fieldNN w).toNat := by
  rw [toNat_fieldNNN, val_fieldX, toNat_fieldNN]
  omega

theorem fieldNNN_eq_fieldX_fieldY_fieldN (w : Word) :
    (fieldNNN w).toNat = (fieldX w).val * 256 + (fieldY w).val * 16 + (fieldN w).val := by
  rw [fieldNNN_eq_fieldX_fieldNN, fieldNN_eq_fieldY_fieldN, Nat.add_assoc]

/-- Settles O5: each field is a slice of the word, and a wide field is its nibbles joined. -/
theorem fieldsOfWord : Obligations.FieldsOfWord := by
  intro w
  exact ⟨val_fieldOp w, val_fieldX w, val_fieldY w, val_fieldN w, toNat_fieldNN w, toNat_fieldNNN w,
    fieldNN_eq_fieldY_fieldN w, fieldNNN_eq_fieldX_fieldY_fieldN w⟩

end Sys2Proof
end

section
/-! SUPPORT. Jumps and skips (41_control_flow.md R131, R133 to R135): the decoding of their words, what
they leave of the state, and the program counter they set. -/

namespace Sys2Proof

/-! ### The words of groups 1, 3, 4 and B (30_encoding.md R74) -/

theorem decodeWord_jp (nnn : Addr12) : decodeWord (formatNNN 0x1#4 nnn) = .ok (.jp nnn) := by
  simp [decodeWord]

theorem decodeWord_jpV0 (nnn : Addr12) : decodeWord (formatNNN 0xB#4 nnn) = .ok (.jpV0 nnn) := by
  simp [decodeWord]

theorem decodeWord_seImm (x : Reg) (nn : Byte) :
    decodeWord (formatXNN 0x3#4 x nn) = .ok (.seImm x nn) := by
  simp [decodeWord]

theorem decodeWord_sneImm (x : Reg) (nn : Byte) :
    decodeWord (formatXNN 0x4#4 x nn) = .ok (.sneImm x nn) := by
  simp [decodeWord]

theorem toNat_zext16 (a : Addr12) : (zext16 a).toNat = a.toNat :=
  BitVec.toNat_setWidth_of_le (by decide)

end Sys2Proof

namespace Sys2Proof.Machine

/-! ### Jumps -/

theorem onlyPc_jump (s : State) (a : Word) : s.OnlyPc (s.jump a) := rfl

/-- The sum of R133 is at most 0xFFF + 0xFF = 0x10FE, so the width never cuts it. -/
theorem toNat_addWord_zext16 (a : Addr12) (b : Byte) :
    (addWord (zext16 a) b).toNat = a.toNat + b.toNat := by
  have ha : a.toNat < 4096 := a.isLt
  have hb : b.toNat < 256 := b.isLt
  rw [addWord, BitVec.toNat_ofNat, toNat_zext16]
  exact Nat.mod_eq_of_lt (by omega)

theorem exec_jp (nnn : Addr12) (s : State) : exec (.jp nnn) s = .next (s.jump (zext16 nnn)) := rfl

theorem exec_jpV0 (nnn : Addr12) (s : State) :
    exec (.jpV0 nnn) s = .next (s.jump (addWord (zext16 nnn) (s.reg 0))) := rfl

/-! ### Skips (R138) -/

theorem onlyPc_skipIf (s : State) (c : Bool) : s.OnlyPc (s.skipIf c) := by
  cases c with
  | false => exact onlyPc_jump s _
  | true => exact onlyPc_jump s _

theorem pcPast_skipIf (s : State) (c : Bool) : s.PcPast (s.skipIf c) (if c then 4 else 2) := by
  rw [State.PcPast, State.skipIf_pc, BitVec.toNat_ofNat]

theorem pcPast_skipIf_beq (s : State) (a b : Byte) :
    s.PcPast (s.skipIf (a == b)) (if a = b then 4 else 2) := by
  have h := pcPast_skipIf s (a == b)
  simpa only [beq_iff_eq] using h

theorem pcPast_skipIf_bne (s : State) (a b : Byte) :
    s.PcPast (s.skipIf (a != b)) (if a = b then 2 else 4) := by
  have h := pcPast_skipIf s (a != b)
  simpa only [bne_iff_ne, ne_eq, ite_not] using h

theorem exec_seImm (x : Reg) (nn : Byte) (s : State) :
    exec (.seImm x nn) s = .next (s.skipIf (s.reg x == nn)) := rfl

theorem exec_sneImm (x : Reg) (nn : Byte) (s : State) :
    exec (.sneImm x nn) s = .next (s.skipIf (s.reg x != nn)) := rfl

/-! ### The statements -/

/-- Settles O13: the jump's target is the widened field, whose value is that of `nnn`. -/
theorem jpSetsPc : Obligations.JpSetsPc := by
  intro nnn s
  exact ⟨decodeWord_jp nnn, _, exec_jp nnn s, toNat_zext16 nnn, onlyPc_jump s _⟩

/-- Settles O16: the jump's target is a sum too small for the width to cut. -/
theorem jpV0AddsV0 : Obligations.JpV0AddsV0 := by
  intro nnn s
  exact ⟨decodeWord_jpV0 nnn, _, exec_jpV0 nnn s, toNat_addWord_zext16 nnn (s.reg 0), onlyPc_jump s _⟩

/-- Settles O17: both instructions are one conditional skip, on a comparison and on its negation. -/
theorem immediateSkips : Obligations.ImmediateSkips := by
  intro x nn s
  refine ⟨decodeWord_seImm x nn, decodeWord_sneImm x nn, ?equal, ?different⟩
  case equal => exact ⟨_, exec_seImm x nn s, pcPast_skipIf_beq s (s.reg x) nn, onlyPc_skipIf s _⟩
  case different => exact ⟨_, exec_sneImm x nn s, pcPast_skipIf_bne s (s.reg x) nn, onlyPc_skipIf s _⟩

end Sys2Proof.Machine
end

section
/-! SUPPORT. The register and ALU instructions (42_register_alu.md R150 to R163): the decoding of their
words, what a write of one register and a write with its flag last leave, and the flags as numbers. -/

namespace Sys2Proof

/-! ### The words of groups 6, 7, 8 and C (30_encoding.md R74) -/

theorem decodeWord_ldImm (x : Reg) (nn : Byte) :
    decodeWord (formatXNN 0x6#4 x nn) = .ok (.ldImm x nn) := by
  simp [decodeWord]

theorem decodeWord_addImm (x : Reg) (nn : Byte) :
    decodeWord (formatXNN 0x7#4 x nn) = .ok (.addImm x nn) := by
  simp [decodeWord]

theorem decodeWord_rnd (x : Reg) (nn : Byte) :
    decodeWord (formatXNN 0xC#4 x nn) = .ok (.rnd x nn) := by
  simp [decodeWord]

theorem decodeWord_group8 (x y : Reg) (n : BitVec 4) :
    decodeWord (formatXYN 0x8#4 x y n) = decodeGroup8 (formatXYN 0x8#4 x y n) := by
  simp [decodeWord]

theorem decodeWord_ldReg (x y : Reg) :
    decodeWord (formatXYN 0x8#4 x y 0x0#4) = .ok (.ldReg x y) := by
  simp [decodeWord_group8, decodeGroup8]

theorem decodeWord_addReg (x y : Reg) :
    decodeWord (formatXYN 0x8#4 x y 0x4#4) = .ok (.addReg x y) := by
  simp [decodeWord_group8, decodeGroup8]

theorem decodeWord_shr (x y : Reg) :
    decodeWord (formatXYN 0x8#4 x y 0x6#4) = .ok (.shr x y) := by
  simp [decodeWord_group8, decodeGroup8]

theorem decodeWord_subn (x y : Reg) :
    decodeWord (formatXYN 0x8#4 x y 0x7#4) = .ok (.subn x y) := by
  simp [decodeWord_group8, decodeGroup8]

theorem decodeWord_shl (x y : Reg) :
    decodeWord (formatXYN 0x8#4 x y 0xE#4) = .ok (.shl x y) := by
  simp [decodeWord_group8, decodeGroup8]

end Sys2Proof

namespace Sys2Proof.Machine

/-! ### The program counter after `next` (00_scope.md R9) -/

theorem pcPast_advance (s : State) : s.PcPast s.advance 2 := by
  rw [State.PcPast, State.advance_pc, BitVec.toNat_ofNat]

/-! ### One register written, then `next` -/

theorem reg_setReg_advance (s : State) (x q : Reg) (b : Byte) :
    (s.setReg x b).advance.reg q = if q = x then b else s.reg q := by
  rw [State.reg_advance, State.reg_setReg]

theorem reg_setReg_advance_same (s : State) (x : Reg) (b : Byte) : (s.setReg x b).advance.reg x = b := by
  rw [reg_setReg_advance, if_pos rfl]

theorem reg_setReg_advance_other (s : State) (x : Reg) (b : Byte) :
    ∀ q, q ≠ x → (s.setReg x b).advance.reg q = s.reg q := by
  intro q hq
  rw [reg_setReg_advance, if_neg hq]

theorem setReg_advance_frame (s : State) (x : Reg) (b : Byte) :
    s.PcPast (s.setReg x b).advance 2 ∧ s.OnlyRegs (s.setReg x b).advance :=
  ⟨pcPast_advance (s.setReg x b), rfl⟩

/-! ### A result and then its flag written (R152), then `next` -/

theorem reg_writeFlagLast_advance (s : State) (x q : Reg) (b : Byte) (c : Bool) :
    (s.writeFlagLast x b c).advance.reg q = if q = 15 then flagByte c else if q = x then b else s.reg q := by
  rw [State.reg_advance, State.reg_writeFlagLast]

/-- `VF` holds the flag whatever x is: for x = F the flag overwrites the result. -/
theorem reg_writeFlagLast_advance_flag (s : State) (x : Reg) (b : Byte) (c : Bool) :
    (s.writeFlagLast x b c).advance.reg 15 = flagByte c := by
  rw [reg_writeFlagLast_advance, if_pos rfl]

theorem reg_writeFlagLast_advance_result (s : State) {x : Reg} (hx : x ≠ 15) (b : Byte) (c : Bool) :
    (s.writeFlagLast x b c).advance.reg x = b := by
  rw [reg_writeFlagLast_advance, if_neg hx, if_pos rfl]

theorem writeFlagLast_advance_frame (s : State) (x : Reg) (b : Byte) (c : Bool) :
    (∀ q, q ≠ x → q ≠ 15 → (s.writeFlagLast x b c).advance.reg q = s.reg q) ∧
      s.PcPast (s.writeFlagLast x b c).advance 2 ∧ s.OnlyRegs (s.writeFlagLast x b c).advance := by
  refine ⟨?others, pcPast_advance (s.writeFlagLast x b c), rfl⟩
  case others =>
    intro q hx hF
    rw [reg_writeFlagLast_advance, if_neg hF, if_neg hx]

/-! ### Flags and results as numbers -/

theorem flagByte_carry (a b : Byte) :
    flagByte (carry a b) = if a.toNat + b.toNat > 255 then 1#8 else 0#8 := by
  simp [flagByte, carry]

theorem flagByte_notBorrow (a b : Byte) :
    flagByte (notBorrow a b) = if a.toNat ≥ b.toNat then 1#8 else 0#8 := by
  simp [flagByte, notBorrow]

theorem toNat_flagByte (c : Bool) : (flagByte c).toNat = c.toNat := by
  cases c with
  | false => rfl
  | true => rfl

theorem toNat_flagByte_shiftedOutRight (b : Byte) : (flagByte (shiftedOutRight b)).toNat = b.toNat % 2 := by
  rw [toNat_flagByte, shiftedOutRight, BitVec.getLsbD, Nat.toNat_testBit, Nat.pow_zero, Nat.div_one]

/-- Bit 7 is the whole quotient by 128: a byte is below 256. -/
theorem toNat_flagByte_shiftedOutLeft (b : Byte) : (flagByte (shiftedOutLeft b)).toNat = b.toNat / 128 := by
  have hb : b.toNat < 256 := b.isLt
  rw [toNat_flagByte, shiftedOutLeft, BitVec.getLsbD, Nat.toNat_testBit]
  omega

theorem intCast_toNat_subByte (a b : Byte) :
    ((subByte a b).toNat : Int) = ((a.toNat : Int) - (b.toNat : Int)) % 256 := by
  rw [subByte, BitVec.toNat_ofInt]
  exact Int.toNat_of_nonneg (Int.emod_nonneg _ (by decide))

theorem toNat_shiftRightByte (b : Byte) : (shiftRightByte b).toNat = b.toNat / 2 := by
  have hb : b.toNat < 256 := b.isLt
  rw [shiftRightByte, BitVec.toNat_ofNat]
  omega

theorem toNat_shiftLeftByte (b : Byte) : (shiftLeftByte b).toNat = b.toNat * 2 % 256 :=
  BitVec.toNat_ofNat _ _

/-! ### What each instruction answers -/

theorem exec_ldImm (x : Reg) (nn : Byte) (s : State) :
    exec (.ldImm x nn) s = .next (s.setReg x nn).advance := rfl

theorem exec_ldReg (x y : Reg) (s : State) :
    exec (.ldReg x y) s = .next (s.setReg x (s.reg y)).advance := rfl

theorem exec_addImm (x : Reg) (nn : Byte) (s : State) :
    exec (.addImm x nn) s = .next (s.setReg x (addByte (s.reg x) nn)).advance := rfl

theorem exec_rnd (x : Reg) (nn : Byte) (s : State) :
    exec (.rnd x nn) s = .next (s.setReg x (s.inp.rnd &&& nn)).advance := rfl

theorem exec_addReg (x y : Reg) (s : State) : exec (.addReg x y) s =
    .next (s.writeFlagLast x (addByte (s.reg x) (s.reg y)) (carry (s.reg x) (s.reg y))).advance := rfl

theorem exec_shr (x y : Reg) (s : State) : exec (.shr x y) s =
    .next (s.writeFlagLast x (shiftRightByte (s.reg y)) (shiftedOutRight (s.reg y))).advance := rfl

theorem exec_subn (x y : Reg) (s : State) : exec (.subn x y) s =
    .next (s.writeFlagLast x (subByte (s.reg y) (s.reg x)) (notBorrow (s.reg y) (s.reg x))).advance := rfl

theorem exec_shl (x y : Reg) (s : State) : exec (.shl x y) s =
    .next (s.writeFlagLast x (shiftLeftByte (s.reg y)) (shiftedOutLeft (s.reg y))).advance := rfl

/-! ### The statements -/

/-- Settles O20: each of the two loads is one register write. -/
theorem loadsWriteVx : Obligations.LoadsWriteVx := by
  intro x y nn s
  refine ⟨decodeWord_ldImm x nn, decodeWord_ldReg x y, ?immediate, ?register⟩
  case immediate =>
    exact ⟨_, exec_ldImm x nn s, fun q => reg_setReg_advance s x q nn, setReg_advance_frame s x nn⟩
  case register =>
    exact ⟨_, exec_ldReg x y s, fun q => reg_setReg_advance s x q (s.reg y), setReg_advance_frame s x _⟩

/-- Settles O21: the sum is the one register write, so no flag is touched. -/
theorem addImmWraps : Obligations.AddImmWraps := by
  intro x nn s
  refine ⟨decodeWord_addImm x nn, _, exec_addImm x nn s, ?sum, reg_setReg_advance_other s x _,
    setReg_advance_frame s x _⟩
  case sum => rw [reg_setReg_advance_same, addByte_toNat]

/-- Settles O23: the carry is the last write, and the sum stands in any other destination. -/
theorem addRegSetsCarryLast : Obligations.AddRegSetsCarryLast := by
  intro x y s
  refine ⟨decodeWord_addReg x y, _, exec_addReg x y s, ?flag, ?sum, writeFlagLast_advance_frame s x _ _⟩
  case flag => rw [reg_writeFlagLast_advance_flag, flagByte_carry]
  case sum =>
    intro hx
    rw [reg_writeFlagLast_advance_result s hx, addByte_toNat]

/-- Settles O25: bit 0 of `Vy` is its remainder by 2, and the quotient fits the byte. -/
theorem shrReadsVy : Obligations.ShrReadsVy := by
  intro x y s
  refine ⟨decodeWord_shr x y, _, exec_shr x y s, ?flag, ?half, writeFlagLast_advance_frame s x _ _⟩
  case flag => rw [reg_writeFlagLast_advance_flag, toNat_flagByte_shiftedOutRight]
  case half =>
    intro hx
    rw [reg_writeFlagLast_advance_result s hx, toNat_shiftRightByte]

/-- Settles O26: not-borrow is the last write, and the difference mod 256 stands in any other
destination. -/
theorem subnSetsNotBorrowLast : Obligations.SubnSetsNotBorrowLast := by
  intro x y s
  refine ⟨decodeWord_subn x y, _, exec_subn x y s, ?flag, ?difference,
    writeFlagLast_advance_frame s x _ _⟩
  case flag => rw [reg_writeFlagLast_advance_flag, flagByte_notBorrow]
  case difference =>
    intro hx
    rw [reg_writeFlagLast_advance_result s hx, intCast_toNat_subByte]

/-- Settles O27: bit 7 of `Vy` is its quotient by 128, and the rest is doubled. -/
theorem shlReadsVy : Obligations.ShlReadsVy := by
  intro x y s
  refine ⟨decodeWord_shl x y, _, exec_shl x y s, ?flag, ?double, writeFlagLast_advance_frame s x _ _⟩
  case flag => rw [reg_writeFlagLast_advance_flag, toNat_flagByte_shiftedOutLeft]
  case double =>
    intro hx
    rw [reg_writeFlagLast_advance_result s hx, toNat_shiftLeftByte]

/-- Settles O28: `Vx` is the conjunction of the random byte and the mask, bit by bit. -/
theorem rndMasksRandomByte : Obligations.RndMasksRandomByte := by
  intro x nn s
  refine ⟨decodeWord_rnd x nn, _, exec_rnd x nn s, ?bits, reg_setReg_advance_other s x _,
    setReg_advance_frame s x _⟩
  case bits =>
    intro b
    rw [reg_setReg_advance_same, BitVec.getLsbD_and]

end Sys2Proof.Machine
end

section
/-! SUPPORT. The index register (43_index_memory.md R180): the decoding of `ANNN`, and what a write of `I`
leaves of the state. -/

namespace Sys2Proof

/-! ### The words of group A (30_encoding.md R74) -/

theorem decodeWord_ldI (nnn : Addr12) : decodeWord (formatNNN 0xA#4 nnn) = .ok (.ldI nnn) := by
  simp [decodeWord]

end Sys2Proof

namespace Sys2Proof.Machine

/-! ### `I` written, then `next` -/

theorem i_setI_advance (s : State) (a : Word) : (s.setI a).advance.i = a := by
  rw [State.advance_i, State.setI_i]

theorem setI_advance_frame (s : State) (a : Word) :
    s.PcPast (s.setI a).advance 2 ∧ s.OnlyIndex (s.setI a).advance :=
  ⟨pcPast_advance (s.setI a), rfl⟩

theorem exec_ldI (nnn : Addr12) (s : State) :
    exec (.ldI nnn) s = .next (s.setI (zext16 nnn)).advance := rfl

/-! ### The statement -/

/-- Settles O29: the one write of `I` is the widened field, whose value is that of `nnn`. -/
theorem ldISetsIndex : Obligations.LdISetsIndex := by
  intro nnn s
  refine ⟨decodeWord_ldI nnn, _, exec_ldI nnn s, ?index, setI_advance_frame s _⟩
  case index => rw [i_setI_advance, toNat_zext16]

end Sys2Proof.Machine
end

section
/-! SUPPORT. The keypad (45_keypad.md R222, R224, R225): the decoding of the key skips, the key they test,
and what a release leaves of the state. -/

namespace Sys2Proof

/-! ### The words of group E (30_encoding.md R74) -/

theorem decodeWord_groupE (x : Reg) (nn : Byte) :
    decodeWord (formatXNN 0xE#4 x nn) = decodeGroupE (formatXNN 0xE#4 x nn) := by
  simp [decodeWord]

theorem decodeWord_skp (x : Reg) : decodeWord (formatXNN 0xE#4 x 0x9E#8) = .ok (.skp x) := by
  simp [decodeWord_groupE, decodeGroupE]

theorem decodeWord_sknp (x : Reg) : decodeWord (formatXNN 0xE#4 x 0xA1#8) = .ok (.sknp x) := by
  simp [decodeWord_groupE, decodeGroupE]

end Sys2Proof

namespace Sys2Proof.Machine

/-! ### The key skips (R224, R225) -/

theorem pcPast_skipIf_not (s : State) (c : Bool) : s.PcPast (s.skipIf (!c)) (if c then 2 else 4) := by
  cases c with
  | false => exact pcPast_skipIf s true
  | true => exact pcPast_skipIf s false

/-- The tested key is the low nibble of `Vx`: the high nibble is ignored. -/
theorem lowNibble_eq_of_val_eq {b : Byte} {k : Key} (hk : k.val = b.toNat % 16) : lowNibble b = k :=
  Fin.ext hk.symm

theorem exec_skp {x : Reg} {s : State} {k : Key} (hk : k.val = (s.reg x).toNat % 16) :
    exec (.skp x) s = .next (s.skipIf (s.held k)) := by
  rw [← lowNibble_eq_of_val_eq hk]
  rfl

theorem exec_sknp {x : Reg} {s : State} {k : Key} (hk : k.val = (s.reg x).toNat % 16) :
    exec (.sknp x) s = .next (s.skipIf (!s.held k)) := by
  rw [← lowNibble_eq_of_val_eq hk]
  rfl

/-! ### A release (R222) -/

theorem held_keyUp (k q : Key) (s : State) : (keyUp k s).held q = if q = k then false else s.held q :=
  State.held_setKey s k q false

theorem keyUp_frame (k : Key) (s : State) : keyUp k s = { s with k := (keyUp k s).k } := rfl

/-! ### The statements -/

/-- Settles O41: both instructions are one conditional skip, on the key's flag and on its negation. -/
theorem keySkips : Obligations.KeySkips := by
  intro x s k hk
  refine ⟨decodeWord_skp x, decodeWord_sknp x, ?pressed, ?notPressed⟩
  case pressed => exact ⟨_, exec_skp hk, pcPast_skipIf s (s.held k), onlyPc_skipIf s _⟩
  case notPressed => exact ⟨_, exec_sknp hk, pcPast_skipIf_not s (s.held k), onlyPc_skipIf s _⟩

/-- Settles O44: a release is one write of the key's flag. -/
theorem keyUpClearsFlag : Obligations.KeyUpClearsFlag := by
  intro k s
  exact ⟨fun q => held_keyUp k q s, keyUp_frame k s⟩

end Sys2Proof.Machine
end

section
/-! SUPPORT. The delay timer (46_timers.md R240, R245): the decoding of `FX15`, and what a start of the
timer leaves of the state. -/

namespace Sys2Proof

/-! ### The words of group F (30_encoding.md R74) -/

theorem decodeWord_groupF (x : Reg) (nn : Byte) :
    decodeWord (formatXNN 0xF#4 x nn) = decodeGroupF (formatXNN 0xF#4 x nn) := by
  simp [decodeWord]

theorem decodeWord_ldDtVx (x : Reg) : decodeWord (formatXNN 0xF#4 x 0x15#8) = .ok (.ldDtVx x) := by
  simp [decodeWord_groupF, decodeGroupF]

end Sys2Proof

namespace Sys2Proof.Machine

/-! ### The timer started, then `next` -/

theorem dtStart_advance_frame (s : State) (b : Byte) (t : Time) :
    (s.dtStart b t).advance = { s with dtArmed := true, dtCount := b, dtStamp := t,
                                       pc := (s.dtStart b t).advance.pc } := rfl

theorem exec_ldDtVx (x : Reg) (s : State) :
    exec (.ldDtVx x) s = .next (s.dtStart (s.reg x) s.inp.tStart).advance := rfl

/-! ### The statement -/

/-- Settles O47: the instruction is one start of the timer with `Vx` at `t_start`, whatever the timer
held before, and then `next`. -/
theorem setTimerArms : Obligations.SetTimerArms := by
  intro x s
  exact ⟨decodeWord_ldDtVx x, _, exec_ldDtVx x s, pcPast_advance (s.dtStart (s.reg x) s.inp.tStart),
    dtStart_advance_frame s (s.reg x) s.inp.tStart⟩

end Sys2Proof.Machine
end

section
/-! SUPPORT. The failed load (70_reset_and_hazards.md R302). -/

namespace Sys2Proof.Machine

/-- Settles O50: of the cases of a load, the two errors write the reply alone, and the reset answers
`ok`, so it is no failure. -/
theorem failedLoadChangesNothing : Obligations.FailedLoadChangesNothing := by
  intro p s hfail
  obtain ⟨-, habsent⟩ | ⟨_, -, -, hoversized⟩ | ⟨_, -, -, -, hreset⟩ := load_cases p s
  · rw [habsent]
  · rw [hoversized]
  · exact absurd (congrArg State.reply hreset) hfail

end Sys2Proof.Machine
end

section
/-! SUPPORT. The decoder against the encoder (30_encoding.md R70 to R77): the decoding of the words that
no section before this one names, and the word of each instruction the decoder reads. -/

namespace Sys2Proof

/-! ### The words of groups 0, 2, 5, 8, 9, D and F (R74) -/

theorem decodeWord_sys {nnn : Addr12} (hcls : nnn ≠ 0x0E0#12) (hret : nnn ≠ 0x0EE#12) :
    decodeWord (formatNNN 0x0#4 nnn) = .ok (.sys nnn) := by
  have hcls' : formatNNN 0x0#4 nnn ≠ 0x00E0#16 := fun h =>
    hcls ((fieldNNN_formatNNN 0x0#4 nnn).symm.trans (congrArg fieldNNN h))
  have hret' : formatNNN 0x0#4 nnn ≠ 0x00EE#16 := fun h =>
    hret ((fieldNNN_formatNNN 0x0#4 nnn).symm.trans (congrArg fieldNNN h))
  simp [decodeWord, decodeGroup0, hcls', hret']

theorem decodeWord_call (nnn : Addr12) : decodeWord (formatNNN 0x2#4 nnn) = .ok (.call nnn) := by
  simp [decodeWord]

theorem decodeWord_group5 (x y : Reg) (n : BitVec 4) : decodeWord (formatXYN 0x5#4 x y n) =
    if nibbleVal n = 0 then .ok (.seReg x y) else .error (.unrecognized (formatXYN 0x5#4 x y n)) := by
  simp [decodeWord]

theorem decodeWord_group9 (x y : Reg) (n : BitVec 4) : decodeWord (formatXYN 0x9#4 x y n) =
    if nibbleVal n = 0 then .ok (.sneReg x y) else .error (.unrecognized (formatXYN 0x9#4 x y n)) := by
  simp [decodeWord]

theorem decodeWord_seReg (x y : Reg) : decodeWord (formatXYN 0x5#4 x y 0x0#4) = .ok (.seReg x y) :=
  decodeWord_group5 x y 0x0#4

theorem decodeWord_sneReg (x y : Reg) : decodeWord (formatXYN 0x9#4 x y 0x0#4) = .ok (.sneReg x y) :=
  decodeWord_group9 x y 0x0#4

theorem decodeWord_orReg (x y : Reg) : decodeWord (formatXYN 0x8#4 x y 0x1#4) = .ok (.orReg x y) := by
  simp [decodeWord_group8, decodeGroup8]

theorem decodeWord_andReg (x y : Reg) : decodeWord (formatXYN 0x8#4 x y 0x2#4) = .ok (.andReg x y) := by
  simp [decodeWord_group8, decodeGroup8]

theorem decodeWord_xorReg (x y : Reg) : decodeWord (formatXYN 0x8#4 x y 0x3#4) = .ok (.xorReg x y) := by
  simp [decodeWord_group8, decodeGroup8]

theorem decodeWord_sub (x y : Reg) : decodeWord (formatXYN 0x8#4 x y 0x5#4) = .ok (.sub x y) := by
  simp [decodeWord_group8, decodeGroup8]

theorem decodeWord_drw (x y : Reg) (n : Fin 16) :
    decodeWord (formatXYN 0xD#4 x y (nibble n)) = .ok (.drw x y n) := by
  simp [decodeWord]

theorem decodeWord_ldVxDt (x : Reg) : decodeWord (formatXNN 0xF#4 x 0x07#8) = .ok (.ldVxDt x) := by
  simp [decodeWord_groupF, decodeGroupF]

theorem decodeWord_ldVxK (x : Reg) : decodeWord (formatXNN 0xF#4 x 0x0A#8) = .ok (.ldVxK x) := by
  simp [decodeWord_groupF, decodeGroupF]

theorem decodeWord_ldStVx (x : Reg) : decodeWord (formatXNN 0xF#4 x 0x18#8) = .ok (.ldStVx x) := by
  simp [decodeWord_groupF, decodeGroupF]

theorem decodeWord_addI (x : Reg) : decodeWord (formatXNN 0xF#4 x 0x1E#8) = .ok (.addI x) := by
  simp [decodeWord_groupF, decodeGroupF]

theorem decodeWord_ldF (x : Reg) : decodeWord (formatXNN 0xF#4 x 0x29#8) = .ok (.ldF x) := by
  simp [decodeWord_groupF, decodeGroupF]

theorem decodeWord_ldB (x : Reg) : decodeWord (formatXNN 0xF#4 x 0x33#8) = .ok (.ldB x) := by
  simp [decodeWord_groupF, decodeGroupF]

theorem decodeWord_stRegs (x : Reg) : decodeWord (formatXNN 0xF#4 x 0x55#8) = .ok (.stRegs x) := by
  simp [decodeWord_groupF, decodeGroupF]

theorem decodeWord_ldRegs (x : Reg) : decodeWord (formatXNN 0xF#4 x 0x65#8) = .ok (.ldRegs x) := by
  simp [decodeWord_groupF, decodeGroupF]

/-! ### Decoding an encoding -/

theorem wellFormed_sys_iff (nnn : Addr12) :
    (Instr.sys nnn).WellFormed ↔ nnn ≠ 0x0E0#12 ∧ nnn ≠ 0x0EE#12 := by
  simp [Instr.WellFormed, Instr.wf, Instr.notCls, Instr.notRet]

theorem decodeWord_encode {j : Instr} (hwf : j.WellFormed) : decodeWord (encode j) = .ok j := by
  cases j with
  | cls => rfl
  | ret => rfl
  | sys nnn =>
    obtain ⟨hcls, hret⟩ := (wellFormed_sys_iff nnn).mp hwf
    exact decodeWord_sys hcls hret
  | jp nnn => exact decodeWord_jp nnn
  | call nnn => exact decodeWord_call nnn
  | seImm x nn => exact decodeWord_seImm x nn
  | sneImm x nn => exact decodeWord_sneImm x nn
  | seReg x y => exact decodeWord_seReg x y
  | ldImm x nn => exact decodeWord_ldImm x nn
  | addImm x nn => exact decodeWord_addImm x nn
  | ldReg x y => exact decodeWord_ldReg x y
  | orReg x y => exact decodeWord_orReg x y
  | andReg x y => exact decodeWord_andReg x y
  | xorReg x y => exact decodeWord_xorReg x y
  | addReg x y => exact decodeWord_addReg x y
  | sub x y => exact decodeWord_sub x y
  | shr x y => exact decodeWord_shr x y
  | subn x y => exact decodeWord_subn x y
  | shl x y => exact decodeWord_shl x y
  | sneReg x y => exact decodeWord_sneReg x y
  | ldI nnn => exact decodeWord_ldI nnn
  | jpV0 nnn => exact decodeWord_jpV0 nnn
  | rnd x nn => exact decodeWord_rnd x nn
  | drw x y n => exact decodeWord_drw x y n
  | skp x => exact decodeWord_skp x
  | sknp x => exact decodeWord_sknp x
  | ldVxDt x => exact decodeWord_ldVxDt x
  | ldVxK x => exact decodeWord_ldVxK x
  | ldDtVx x => exact decodeWord_ldDtVx x
  | ldStVx x => exact decodeWord_ldStVx x
  | addI x => exact decodeWord_addI x
  | ldF x => exact decodeWord_ldF x
  | ldB x => exact decodeWord_ldB x
  | stRegs x => exact decodeWord_stRegs x
  | ldRegs x => exact decodeWord_ldRegs x

/-- Settles O1: the two bytes join to the instruction's word, and every constructor's word decodes to it. -/
theorem decodeEncodeRoundTrip : Obligations.DecodeEncodeRoundTrip := by
  intro j rest hwf
  have hword : wordOfBytes (highByte (encode j)) (lowByte (encode j)) = encode j := wordOfBytes_bytes _
  simp only [encodeBytes, List.cons_append, List.nil_append, decodeBytes, hword, decodeWord_encode hwf]

/-! ### The word of a format, from the fields the decoder tested -/

theorem formatNNN_of_fieldOp {w : Word} {op : BitVec 4} (hop : (fieldOp w).val = op.toNat) :
    formatNNN op (fieldNNN w) = w := by
  have hop' : nibble (fieldOp w) = op := by rw [nibble, hop, BitVec.ofNat_toNat, BitVec.setWidth_eq]
  rw [← hop']
  exact formatNNN_fields w

theorem formatXNN_of_fieldOp {w : Word} {op : BitVec 4} (hop : (fieldOp w).val = op.toNat) :
    formatXNN op (fieldX w) (fieldNN w) = w := by
  have hop' : nibble (fieldOp w) = op := by rw [nibble, hop, BitVec.ofNat_toNat, BitVec.setWidth_eq]
  rw [← hop']
  exact formatXNN_fields w

theorem formatXNN_of_fieldNN {w : Word} {op : BitVec 4} {ff : Byte} (hop : (fieldOp w).val = op.toNat)
    (hff : (fieldNN w).toNat = ff.toNat) : formatXNN op (fieldX w) ff = w := by
  rw [← BitVec.eq_of_toNat_eq hff]
  exact formatXNN_of_fieldOp hop

theorem formatXYN_of_fieldN {w : Word} {op n : BitVec 4} (hop : (fieldOp w).val = op.toNat)
    (hn : (fieldN w).val = n.toNat) : formatXYN op (fieldX w) (fieldY w) n = w := by
  have hop' : nibble (fieldOp w) = op := by rw [nibble, hop, BitVec.ofNat_toNat, BitVec.setWidth_eq]
  have hn' : nibble (fieldN w) = n := by rw [nibble, hn, BitVec.ofNat_toNat, BitVec.setWidth_eq]
  rw [← hop', ← hn']
  exact formatXYN_fields w

/-! ### Encoding a decoding, group by group -/

theorem encode_of_decodeGroup0 {w : Word} {j : Instr} (hop : (fieldOp w).val = 0x0)
    (h : decodeGroup0 w = .ok j) : j.WellFormed ∧ encode j = w := by
  have hw : formatNNN 0x0#4 (fieldNNN w) = w := formatNNN_of_fieldOp hop
  unfold decodeGroup0 at h
  split at h
  next hcls => cases h; exact ⟨rfl, hcls.symm⟩
  next hcls =>
    split at h
    next hret => cases h; exact ⟨rfl, hret.symm⟩
    next hret =>
      cases h
      refine ⟨(wellFormed_sys_iff _).mpr ⟨fun h0 => hcls ?_, fun h0 => hret ?_⟩, hw⟩
      · rw [← hw, h0]; rfl
      · rw [← hw, h0]; rfl

theorem encode_of_decodeGroup8 {w : Word} {j : Instr} (hop : (fieldOp w).val = 0x8)
    (h : decodeGroup8 w = .ok j) : j.WellFormed ∧ encode j = w := by
  unfold decodeGroup8 at h
  split at h <;> cases h
  all_goals exact ⟨rfl, formatXYN_of_fieldN hop ‹_›⟩

theorem encode_of_decodeGroupE {w : Word} {j : Instr} (hop : (fieldOp w).val = 0xE)
    (h : decodeGroupE w = .ok j) : j.WellFormed ∧ encode j = w := by
  unfold decodeGroupE at h
  split at h <;> cases h
  all_goals exact ⟨rfl, formatXNN_of_fieldNN hop ‹_›⟩

theorem encode_of_decodeGroupF {w : Word} {j : Instr} (hop : (fieldOp w).val = 0xF)
    (h : decodeGroupF w = .ok j) : j.WellFormed ∧ encode j = w := by
  unfold decodeGroupF at h
  split at h <;> cases h
  all_goals exact ⟨rfl, formatXNN_of_fieldNN hop ‹_›⟩

/-- Settles O2: each arm of the decoder fixes the fields it tests and passes the others on, and the
word is its fields joined. -/
theorem encodeDecodeRoundTrip : Obligations.EncodeDecodeRoundTrip := by
  intro w j h
  unfold decodeWord at h
  split at h
  next hop => exact encode_of_decodeGroup0 hop h
  next hop => cases h; exact ⟨rfl, formatNNN_of_fieldOp hop⟩
  next hop => cases h; exact ⟨rfl, formatNNN_of_fieldOp hop⟩
  next hop => cases h; exact ⟨rfl, formatXNN_of_fieldOp hop⟩
  next hop => cases h; exact ⟨rfl, formatXNN_of_fieldOp hop⟩
  next hop =>
    split at h <;> cases h
    next hn => exact ⟨rfl, formatXYN_of_fieldN hop (congrArg Fin.val hn)⟩
  next hop => cases h; exact ⟨rfl, formatXNN_of_fieldOp hop⟩
  next hop => cases h; exact ⟨rfl, formatXNN_of_fieldOp hop⟩
  next hop => exact encode_of_decodeGroup8 hop h
  next hop =>
    split at h <;> cases h
    next hn => exact ⟨rfl, formatXYN_of_fieldN hop (congrArg Fin.val hn)⟩
  next hop => cases h; exact ⟨rfl, formatNNN_of_fieldOp hop⟩
  next hop => cases h; exact ⟨rfl, formatNNN_of_fieldOp hop⟩
  next hop => cases h; exact ⟨rfl, formatXNN_of_fieldOp hop⟩
  next hop => cases h; exact ⟨rfl, formatXYN_of_fieldN hop (congrArg Fin.val (nibbleVal_nibble _)).symm⟩
  next hop => exact encode_of_decodeGroupE hop h
  next => exact encode_of_decodeGroupF (by have := (fieldOp w).isLt; simp only [imp_false] at *; omega) h

/-! ### The rejected words (R77) -/

theorem decodeGroup0_ne_error (w : Word) (r : DecodeReject) : decodeGroup0 w ≠ .error r := by
  unfold decodeGroup0
  split
  · exact fun h => nomatch h
  · split <;> exact fun h => nomatch h

theorem decodeGroup8_error_iff (w : Word) :
    (∃ r, decodeGroup8 w = .error r) ↔ 8 ≤ (fieldN w).val ∧ (fieldN w).val ≠ 0xE := by
  have hlt := (fieldN w).isLt
  unfold decodeGroup8
  split
  case h_10 =>
    simp only [imp_false] at *
    simp only [Except.error.injEq, exists_eq', true_iff]
    omega
  all_goals simp_all

theorem decodeGroupE_error_iff (w : Word) :
    (∃ r, decodeGroupE w = .error r) ↔ (fieldNN w).toNat ≠ 0x9E ∧ (fieldNN w).toNat ≠ 0xA1 := by
  unfold decodeGroupE
  split <;> simp_all

theorem decodeGroupF_error_iff (w : Word) :
    (∃ r, decodeGroupF w = .error r) ↔
      (fieldNN w).toNat ∉ [0x07, 0x0A, 0x15, 0x18, 0x1E, 0x29, 0x33, 0x55, 0x65] := by
  unfold decodeGroupF
  split <;> simp_all

/-- The test of groups 5 and 9: the word is rejected where the condition fails. -/
theorem ite_ok_error_iff {c : Prop} [Decidable c] (j : Instr) (e : DecodeReject) :
    (∃ r, (if c then (.ok j : Except DecodeReject Instr) else .error e) = .error r) ↔ ¬ c := by
  by_cases h : c
  · simp [h]
  · simp [h]

/-- Settles O3: the groups with no arm for a word are 5, 8, 9, E and F, each on the field it tests. -/
theorem illegalWordsAreRejected : Obligations.IllegalWordsAreRejected := by
  intro w
  refine ⟨?_, fun r => Machine.decodeWord_error⟩
  rw [← val_fieldOp, ← val_fieldN, ← toNat_fieldNN]
  unfold decodeWord
  split
  next hop => simp [hop, decodeGroup0_ne_error]
  next hop => simp [hop]
  next hop => simp [hop]
  next hop => simp [hop]
  next hop => simp [hop]
  next hop => simp [hop, ite_ok_error_iff]
  next hop => simp [hop]
  next hop => simp [hop]
  next hop => simp [hop, decodeGroup8_error_iff]
  next hop => simp [hop, ite_ok_error_iff]
  next hop => simp [hop]
  next hop => simp [hop]
  next hop => simp [hop]
  next hop => simp [hop]
  next hop => simp [hop, decodeGroupE_error_iff]
  next =>
    have hop : (fieldOp w).val = 0xF := by
      have := (fieldOp w).isLt
      simp only [imp_false] at *
      omega
    simp [hop, decodeGroupF_error_iff]

/-- Settles O4: the decoder computes each word. -/
theorem specWordsDecode : Obligations.SpecWordsDecode :=
  ⟨rfl, rfl, rfl, rfl, rfl, rfl, rfl, rfl, rfl, rfl, rfl, rfl⟩

end Sys2Proof
end

section
/-! SUPPORT. Calls, returns, the skips on two registers and `0NNN` (41_control_flow.md R130, R132, R136,
R137, R139). -/

namespace Sys2Proof.Machine

/-! ### What each instruction answers -/

theorem exec_call (nnn : Addr12) (s : State) : exec (.call nnn) s =
    .next ((s.push (BitVec.ofNat 16 (s.pc.toNat + 2))).jump (zext16 nnn)) := rfl

theorem exec_ret_of_empty {s : State} (h : s.stack = []) :
    exec .ret s = .next (s.faulted (.stackUnderflow s.pc)) := by
  simp only [exec, execRet, h, raise]

theorem exec_ret_of_cons {s : State} {a : Word} {rest : List Word} (h : s.stack = a :: rest) :
    exec .ret s = .next (State.jump { s with stack := rest } a) := by
  simp only [exec, execRet, h]

theorem exec_sys (nnn : Addr12) (s : State) :
    exec (.sys nnn) s = .next (s.faulted (.op0Unspecified (formatNNN 0x0#4 nnn))) := rfl

theorem exec_seReg (x y : Reg) (s : State) :
    exec (.seReg x y) s = .next (s.skipIf (s.reg x == s.reg y)) := rfl

theorem exec_sneReg (x y : Reg) (s : State) :
    exec (.sneReg x y) s = .next (s.skipIf (s.reg x != s.reg y)) := rfl

/-! ### The statements -/

/-- Settles O14: one push of the next address, then one jump to the widened field. -/
theorem callPushesReturnAddress : Obligations.CallPushesReturnAddress := by
  intro nnn s
  exact ⟨decodeWord_call nnn, _, BitVec.ofNat 16 (s.pc.toNat + 2), exec_call nnn s, rfl,
    BitVec.toNat_ofNat _ _, toNat_zext16 nnn, rfl⟩

/-- Settles O15: the two cases of the stack. -/
theorem retPopsOrFaults : Obligations.RetPopsOrFaults := by
  refine ⟨rfl, fun s => ⟨?pops, exec_ret_of_empty⟩⟩
  case pops =>
    intro a rest hstack
    exact ⟨_, exec_ret_of_cons hstack, rfl, rfl, rfl⟩

/-- Settles O18: both groups test the fourth nibble, and both instructions are one conditional skip. -/
theorem registerSkips : Obligations.RegisterSkips := by
  intro x y n s
  refine ⟨decodeWord_seReg x y, decodeWord_sneReg x y, ?rejected, ?equal, ?different⟩
  case rejected =>
    intro hn
    have hval : nibbleVal n ≠ 0 := fun h => hn (BitVec.eq_of_toNat_eq (congrArg Fin.val h))
    exact ⟨⟨_, (decodeWord_group5 x y n).trans (if_neg hval)⟩,
      ⟨_, (decodeWord_group9 x y n).trans (if_neg hval)⟩⟩
  case equal => exact ⟨_, exec_seReg x y s, pcPast_skipIf_beq s (s.reg x) (s.reg y), onlyPc_skipIf s _⟩
  case different =>
    exact ⟨_, exec_sneReg x y s, pcPast_skipIf_bne s (s.reg x) (s.reg y), onlyPc_skipIf s _⟩

/-- Settles O19: the fault carries the instruction's own word. -/
theorem sysFaults : Obligations.SysFaults := by
  intro nnn s hcls hret
  exact ⟨decodeWord_sys hcls hret, exec_sys nnn s⟩

end Sys2Proof.Machine
end

section
/-! SUPPORT. The logic operations and the subtraction from `Vx` (42_register_alu.md R154 to R156, R158). -/

namespace Sys2Proof.Machine

/-! ### What each instruction answers -/

theorem exec_orReg (x y : Reg) (s : State) :
    exec (.orReg x y) s = .next (s.setReg x (s.reg x ||| s.reg y)).advance := rfl

theorem exec_andReg (x y : Reg) (s : State) :
    exec (.andReg x y) s = .next (s.setReg x (s.reg x &&& s.reg y)).advance := rfl

theorem exec_xorReg (x y : Reg) (s : State) :
    exec (.xorReg x y) s = .next (s.setReg x (s.reg x ^^^ s.reg y)).advance := rfl

theorem exec_sub (x y : Reg) (s : State) : exec (.sub x y) s =
    .next (s.writeFlagLast x (subByte (s.reg x) (s.reg y)) (notBorrow (s.reg x) (s.reg y))).advance := rfl

/-! ### The statements -/

/-- Settles O22: each operation is one register write of a bitwise result. -/
theorem logicOpsWriteVxOnly : Obligations.LogicOpsWriteVxOnly := by
  intro x y s
  refine ⟨decodeWord_orReg x y, decodeWord_andReg x y, decodeWord_xorReg x y, ?or, ?and, ?xor⟩
  case or =>
    refine ⟨_, exec_orReg x y s, fun b => ?_, reg_setReg_advance_other s x _, setReg_advance_frame s x _⟩
    rw [reg_setReg_advance_same, BitVec.getLsbD_or]
  case and =>
    refine ⟨_, exec_andReg x y s, fun b => ?_, reg_setReg_advance_other s x _, setReg_advance_frame s x _⟩
    rw [reg_setReg_advance_same, BitVec.getLsbD_and]
  case xor =>
    refine ⟨_, exec_xorReg x y s, fun b => ?_, reg_setReg_advance_other s x _, setReg_advance_frame s x _⟩
    rw [reg_setReg_advance_same, BitVec.getLsbD_xor]

/-- Settles O24: not-borrow is the last write, and `Vx - Vy` mod 256 stands in any other destination. -/
theorem subSetsNotBorrowLast : Obligations.SubSetsNotBorrowLast := by
  intro x y s
  refine ⟨decodeWord_sub x y, _, exec_sub x y s, ?flag, ?difference, writeFlagLast_advance_frame s x _ _⟩
  case flag => rw [reg_writeFlagLast_advance_flag, flagByte_notBorrow]
  case difference =>
    intro hx
    rw [reg_writeFlagLast_advance_result s hx, intCast_toNat_subByte]

end Sys2Proof.Machine
end

section
/-! SUPPORT. The index arithmetic and the memory instructions (43_index_memory.md R181 to R185): what a
store and a bulk load leave, inside and outside their range. -/

namespace Sys2Proof.Machine

/-! ### Stores and loads of a run of bytes -/

/-- The byte at offset r of a run of byte writes. -/
theorem Memory.read_writeBytes_offset {m : Memory} {a r : Nat} {bs : List Byte}
    (hfit : a + bs.length ≤ 4096) (hr : r < bs.length) : (m.writeBytes a bs).read (a + r) = bs[r] := by
  rw [Memory.read_writeBytes bs m a (a + r) hfit, dif_pos ⟨Nat.le_add_right a r, by omega⟩]
  simp only [Nat.add_sub_cancel_left]

theorem bytesKeptOutside_of_writeBytes {s t : State} {a : Nat} {bs : List Byte}
    (h : t.mem = s.mem.writeBytes a bs) : s.BytesKeptOutside t a bs.length := by
  intro b hb
  rw [h]
  exact Memory.read_writeBytes_other bs s.mem a b (by omega)

theorem read_storedRegs {s : State} {x q : Reg} (hfit : s.i.toNat + x.val < 4096) (hq : q ≤ x) :
    (s.mem.writeBytes s.i.toNat (s.regsUpTo x)).read (s.i.toNat + q.val) = s.reg q := by
  have hlen : (s.regsUpTo x).length = x.val + 1 := length_regsUpTo s x
  have hqx : q.val ≤ x.val := hq
  rw [Memory.read_writeBytes_offset (by omega) (by omega)]
  exact getElem_regsUpTo s x q.val _

theorem getElem_loadRegs_readBytes (v : Vector Byte 16) (m : Memory) (a : Nat) (x q : Reg) :
    (loadRegs v 0 (m.readBytes a (x.val + 1)))[q.val] = if q ≤ x then m.read (a + q.val) else v[q.val] := by
  rw [getElem_loadRegs _ v 0 q.val q.isLt]
  by_cases hq : q ≤ x
  · have hqx : q.val ≤ x.val := hq
    rw [dif_pos ⟨Nat.zero_le _, by rw [Memory.length_readBytes]; omega⟩, if_pos hq]
    exact Memory.getElem_readBytes m a (x.val + 1) q.val _
  · have hqx : ¬ q.val ≤ x.val := hq
    rw [dif_neg (by rw [Memory.length_readBytes]; omega), if_neg hq]

theorem toNat_indexPast {i : Word} {x : Reg} (h : i.toNat + x.val < 4096) :
    (indexPast i x).toNat = i.toNat + x.val + 1 := by
  rw [indexPast, BitVec.toNat_ofNat]
  exact Nat.mod_eq_of_lt (by omega)

theorem toNat_glyphAddress (digit : Fin 16) : (glyphAddress digit).toNat = 5 * digit.val := by
  rw [glyphAddress, BitVec.toNat_ofNat]
  simp only [Config.fontBase, Config.fontHeight]
  omega

/-! ### The decimal digits of `FX33` -/

theorem toNat_bcdDigits (b : Byte) :
    (bcdDigits b).map BitVec.toNat = [b.toNat / 100, b.toNat / 10 % 10, b.toNat % 10] := by
  have hb : b.toNat < 256 := b.isLt
  simp only [bcdDigits, List.map_cons, List.map_nil, BitVec.toNat_ofNat, List.cons.injEq, and_true]
  omega

/-- The number at offset r of the digits `FX33` stores. -/
theorem toNat_read_bcdDigits {m : Memory} {a r : Nat} (b : Byte) (hfit : a + 2 < 4096) (hr : r < 3) :
    ((m.writeBytes a (bcdDigits b)).read (a + r)).toNat =
      [b.toNat / 100, b.toNat / 10 % 10, b.toNat % 10][r] := by
  have hlen : (bcdDigits b).length = 3 := rfl
  rw [Memory.read_writeBytes_offset (by omega) (by omega)]
  simp only [← toNat_bcdDigits, List.getElem_map]

/-! ### What each instruction answers -/

theorem exec_addI (x : Reg) (s : State) :
    exec (.addI x) s = .next (s.setI (addWord s.i (s.reg x))).advance := rfl

theorem exec_ldF (x : Reg) (s : State) :
    exec (.ldF x) s = .next (s.setI (glyphAddress (lowNibble (s.reg x)))).advance := rfl

theorem exec_ldB {x : Reg} {s : State} (h : s.i.toNat + 2 < 4096) : exec (.ldB x) s =
    .next (s.setMem (s.mem.writeBytes s.i.toNat (bcdDigits (s.reg x)))).advance :=
  if_pos h

theorem exec_ldB_fault {x : Reg} {s : State} (h : 4096 ≤ s.i.toNat + 2) :
    exec (.ldB x) s = .next (s.faulted (.bcdOutOfBounds s.i)) :=
  if_neg (Nat.not_lt.mpr h)

theorem exec_stRegs {x : Reg} {s : State} (h : s.i.toNat + x.val < 4096) : exec (.stRegs x) s =
    .next ((s.setMem (s.mem.writeBytes s.i.toNat (s.regsUpTo x))).setI (indexPast s.i x)).advance :=
  if_pos h

theorem exec_stRegs_fault {x : Reg} {s : State} (h : 4096 ≤ s.i.toNat + x.val) : exec (.stRegs x) s =
    .next (s.faulted (.memoryOutOfBounds (formatXNN 0xF#4 x 0x55#8) (max s.i.toNat 4096))) :=
  if_neg (Nat.not_lt.mpr h)

theorem exec_ldRegs {x : Reg} {s : State} (h : s.i.toNat + x.val < 4096) : exec (.ldRegs x) s =
    .next (State.setI { s with v := loadRegs s.v 0 (s.mem.readBytes s.i.toNat (x.val + 1)) }
      (indexPast s.i x)).advance :=
  if_pos h

theorem exec_ldRegs_fault {x : Reg} {s : State} (h : 4096 ≤ s.i.toNat + x.val) : exec (.ldRegs x) s =
    .next (s.faulted (.memoryOutOfBounds (formatXNN 0xF#4 x 0x65#8) (max s.i.toNat 4096))) :=
  if_neg (Nat.not_lt.mpr h)

/-- The bounds of `DXYN`: no byte, or a range whose last byte is in memory. -/
theorem exec_drw {x y : Reg} {n : Fin 16} {s : State} (h : n.val = 0 ∨ s.i.toNat + n.val ≤ 4096) :
    exec (.drw x y n) s = .next (s.draw x y n.val).advance :=
  if_neg (by simp only [inBounds, Config.memSize]; omega)

theorem exec_drw_fault {x y : Reg} {n : Fin 16} {s : State} (hn : 0 < n.val)
    (h : 4096 < s.i.toNat + n.val) : exec (.drw x y n) s =
    .next (s.faulted (.memoryOutOfBounds (formatXYN 0xD#4 x y (nibble n)) (max s.i.toNat 4096))) :=
  if_pos ⟨hn, by simp only [inBounds, Config.memSize]; omega⟩

/-! ### The statements -/

/-- Settles O30: each instruction is one write of `I`, a sum mod 65536 and a product too small to cut. -/
theorem indexArithmetic : Obligations.IndexArithmetic := by
  intro x s
  refine ⟨decodeWord_addI x, decodeWord_ldF x, ?sum, ?glyph⟩
  case sum =>
    refine ⟨_, exec_addI x s, ?_, setI_advance_frame s _⟩
    rw [i_setI_advance, addWord, BitVec.toNat_ofNat]
  case glyph =>
    refine ⟨_, exec_ldF x s, ?_, setI_advance_frame s _⟩
    rw [i_setI_advance, toNat_glyphAddress, lowNibble]

/-- Settles O31: in range the three digits are one run of byte writes at `I`; else the check comes first. -/
theorem bcdStoresDigitsOrFaults : Obligations.BcdStoresDigitsOrFaults := by
  intro x s
  refine ⟨decodeWord_ldB x, ?stores, exec_ldB_fault⟩
  case stores =>
    intro hfit
    exact ⟨_, exec_ldB hfit, toNat_read_bcdDigits (r := 0) _ hfit (by decide),
      toNat_read_bcdDigits (r := 1) _ hfit (by decide), toNat_read_bcdDigits (r := 2) _ hfit (by decide),
      bytesKeptOutside_of_writeBytes (bs := bcdDigits (s.reg x)) rfl, rfl, pcPast_advance _, rfl⟩

/-- Settles O32: the registers are one run of byte writes at `I`. -/
theorem storeRegsWritesRange : Obligations.StoreRegsWritesRange := by
  intro x s hfit
  refine ⟨_, exec_stRegs hfit, fun q hq => read_storedRegs hfit hq, ?outside, toNat_indexPast hfit,
    pcPast_advance _, rfl⟩
  case outside =>
    rw [← length_regsUpTo s x]
    exact bytesKeptOutside_of_writeBytes rfl

/-- Settles O33: register q takes the byte at offset q of the range, for q up to x. -/
theorem loadRegsReadsRange : Obligations.LoadRegsReadsRange := by
  intro x s hfit
  exact ⟨_, exec_ldRegs hfit, fun q => getElem_loadRegs_readBytes s.v s.mem s.i.toNat x q,
    toNat_indexPast hfit, pcPast_advance _, rfl⟩

/-- Settles O34: each of the three checks its exact range before it does anything else. -/
theorem rangesOutsideMemoryFault : Obligations.RangesOutsideMemoryFault := by
  intro x y n s
  exact ⟨fun h => ⟨exec_stRegs_fault h, exec_ldRegs_fault h⟩, fun hn h => exec_drw_fault hn h⟩

/-- Settles O35: the load reads at offset q what the store wrote there. -/
theorem storeThenLoadRestores : Obligations.StoreThenLoadRestores := by
  intro x s hfit
  refine ⟨_, exec_stRegs hfit, fun v => ⟨_, exec_ldRegs hfit, fun q hq => ?_, rfl, rfl⟩⟩
  exact (getElem_loadRegs_readBytes v _ s.i.toNat x q).trans ((if_pos hq).trans (read_storedRegs hfit hq))

/-- Settles O36: the fetch reads the two neighbouring bytes that the store wrote. -/
theorem storeIntoCodeIsFetched : Obligations.StoreIntoCodeIsFetched := by
  intro x q s t hfit hqx hexec u hmem hpc
  obtain rfl := Host.Outcome.next.inj ((exec_stRegs hfit).symm.trans hexec)
  have hlt : q.val < x.val := hqx
  have hsucc : (q + 1).val = q.val + 1 :=
    (Fin.val_add q 1).trans (Nat.mod_eq_of_lt (show q.val + 1 < 16 by omega))
  have hread : ∀ r : Reg, r ≤ x → u.mem.read (s.i.toNat + r.val) = s.reg r := by
    intro r hr
    rw [hmem]
    exact read_storedRegs hfit hr
  have hlast : s.i.toNat + q.val + 1 < 4096 := by omega
  have hlow := hread (q + 1) (Fin.le_def.mpr (by omega))
  rw [hsucc, ← Nat.add_assoc] at hlow
  rw [fetch_eq_some (by rw [hpc]; exact hlast), hpc, hread q (Fin.le_of_lt hqx), hlow, wordOfBytes]

end Sys2Proof.Machine
end

section
/-! SUPPORT. The display instructions (44_display.md R202 to R205): the buffer, the flag and the records a
draw leaves. -/

namespace Sys2Proof.Machine

/-- The bit of the sprite of `DXYN` that falls on a pixel: its bytes are at `I`, its start in `Vx`, `Vy`. -/
def State.spriteBit (s : State) (x y : Reg) (n : Nat) (px : Fin 64) (py : Fin 32) : Bool :=
  spriteBitAt (s.mem.readBytes s.i.toNat n) ((s.reg x).toNat % 64) ((s.reg y).toNat % 32) px.val py.val

theorem State.spriteBit_congr {s t : State} (hmem : t.mem = s.mem) (hi : t.i = s.i) (hv : t.v = s.v)
    (x y : Reg) (n : Nat) (px : Fin 64) (py : Fin 32) : t.spriteBit x y n px py = s.spriteBit x y n px py := by
  unfold State.spriteBit
  rw [hmem, hi, State.reg_congr hv, State.reg_congr hv]

theorem eq_of_exec_drw {x y : Reg} {n : Fin 16} {s t : State} (hfit : n.val = 0 ∨ s.i.toNat + n.val ≤ 4096)
    (h : exec (.drw x y n) s = .next t) : t = (s.draw x y n.val).advance :=
  (Host.Outcome.next.inj ((exec_drw hfit).symm.trans h)).symm

theorem exec_cls (s : State) :
    exec .cls s = .next (State.emit { s with d := Display.blank } .clearScreen).advance := rfl

/-! ### What a draw leaves -/

theorem get_draw (s : State) (x y : Reg) (n : Nat) (px : Fin 64) (py : Fin 32) :
    (s.draw x y n).d.get px py = (s.d.get px py ^^ s.spriteBit x y n px py) :=
  drawSprite_get _ _ _ s.d px py

theorem reg_draw_other (s : State) (x y : Reg) (n : Nat) {q : Reg} (hq : q ≠ 15) :
    (s.draw x y n).reg q = s.reg q := by
  rw [State.draw, State.reg_emit, State.reg_setFlag, if_neg hq]
  rfl

theorem reg_draw_flag (s : State) (x y : Reg) (n : Nat) : (s.draw x y n).reg 15 = flagByte
    (drawSprite (spriteColumn (s.reg x)) (s.mem.readBytes s.i.toNat n) (spriteRow (s.reg y)).val s.d).2 := by
  rw [State.draw, State.reg_emit, State.reg_setFlag, if_pos rfl]

theorem flagByte_eq_one_iff (c : Bool) : flagByte c = 1#8 ↔ c = true := by
  cases c <;> decide

theorem flagByte_eq_zero_or_one (c : Bool) : flagByte c = 0#8 ∨ flagByte c = 1#8 := by
  cases c <;> decide

/-- `VF` is 1 exactly where some set pixel met a set bit. -/
theorem reg_draw_flag_eq_one_iff (s : State) (x y : Reg) (n : Nat) :
    (s.draw x y n).reg 15 = 1#8 ↔ ∃ px py, s.spriteBit x y n px py = true ∧ s.d.get px py = true := by
  rw [reg_draw_flag, flagByte_eq_one_iff]
  exact drawSprite_collided _ _ _ s.d

theorem pcPast_draw_advance (s : State) (x y : Reg) (n : Nat) : s.PcPast (s.draw x y n).advance 2 := by
  have hpc : (s.draw x y n).pc = s.pc := rfl
  rw [State.PcPast, State.advance_pc, hpc, BitVec.toNat_ofNat]

theorem draw_frame (s : State) (x y : Reg) (n : Nat) : (s.draw x y n).advance =
    { s with d := (s.draw x y n).d, v := (s.draw x y n).v, events := (s.draw x y n).events,
             pc := s.advance.pc } := rfl

/-! ### The statements -/

/-- Settles O37: the buffer is blank, and one event is appended. -/
theorem clsUnsetsEveryPixel : Obligations.ClsUnsetsEveryPixel := by
  refine ⟨rfl, fun s => ⟨_, exec_cls s, fun px py => ?_, rfl, pcPast_advance _, rfl⟩⟩
  exact Display.get_blank px py

/-- Settles O38: the pixels and the collision of the row loop, started at `Vx mod 64` and `Vy mod 32`. -/
theorem drawXorsSpriteAndSetsCollision : Obligations.DrawXorsSpriteAndSetsCollision := by
  intro x y n s hfit
  refine ⟨_, exec_drw hfit, get_draw s x y n.val, reg_draw_flag_eq_one_iff s x y n.val, ?flag,
    fun q hq => reg_draw_other s x y n.val hq, pcPast_draw_advance s x y n.val,
    draw_frame s x y n.val⟩
  case flag =>
    rw [State.reg_advance, reg_draw_flag]
    exact flagByte_eq_zero_or_one _

/-- Settles O39: the one event's records are those of `read` on the rectangle, after the draw. -/
theorem drawEmitsItsRectangle : Obligations.DrawEmitsItsRectangle := by
  intro x y n s hfit
  exact ⟨_, _, exec_drw hfit, rfl, fun p => Display.mem_region _ _ _ _ _ p⟩

/-- Settles O40: the second draw XORs the same bits, for it reads the same bytes and start; a bit that
meets a set pixel is one that the first draw set from unset. -/
theorem drawTwiceRestores : Obligations.DrawTwiceRestores := by
  intro x y n s t u hfit ht hu
  have htdraw : t = (s.draw x y n.val).advance := eq_of_exec_drw hfit ht
  have hmem : t.mem = s.mem := by rw [htdraw]; rfl
  have hi : t.i = s.i := by rw [htdraw]; rfl
  have hfirst (px py) : t.d.get px py = (s.d.get px py ^^ s.spriteBit x y n.val px py) := by
    rw [htdraw]
    exact get_draw s x y n.val px py
  have hudraw := eq_of_exec_drw (by rw [hi]; exact hfit) hu
  have hsame := State.spriteBit_congr (s := s) (t := { t with v := s.v }) hmem hi rfl x y n.val
  refine ⟨Display.ext_get fun px py => ?restored, ?collision⟩
  case restored =>
    calc u.d.get px py
        = (t.d.get px py ^^ s.spriteBit x y n.val px py) := by
          rw [hudraw, State.advance_d, get_draw, hsame]
      _ = ((s.d.get px py ^^ s.spriteBit x y n.val px py) ^^ s.spriteBit x y n.val px py) := by rw [hfirst]
      _ = s.d.get px py := by rw [Bool.xor_assoc, Bool.xor_self, Bool.xor_false]
  case collision =>
    rw [hudraw, State.reg_advance, reg_draw_flag_eq_one_iff]
    refine exists_congr fun px => exists_congr fun py => ?_
    rw [hsame, hfirst]
    cases s.spriteBit x y n.val px py <;> cases s.d.get px py <;> decide

end Sys2Proof.Machine
end

section
/-! SUPPORT. The key wait and the key press (45_keypad.md R221, R226). -/

namespace Sys2Proof.Machine

/-! ### The four cases of `FX0A` -/

theorem exec_ldVxK_idle (x : Reg) {s : State} (h : s.cap = .idle) :
    exec (.ldVxK x) s = .next (s.setCap .capturing) := by
  simp only [exec, execLdVxK, h]

theorem exec_ldVxK_capturing (x : Reg) {s : State} (h : s.cap = .capturing) :
    exec (.ldVxK x) s = .next s := by
  simp only [exec, execLdVxK, h]

theorem exec_ldVxK_held (x : Reg) {s : State} {k : Key} (h : s.cap = .captured k) (hk : s.held k = true) :
    exec (.ldVxK x) s = .next s := by
  simp only [exec, execLdVxK, h, hk, if_true]

theorem exec_ldVxK_released (x : Reg) {s : State} {k : Key} (h : s.cap = .captured k)
    (hk : s.held k = false) :
    exec (.ldVxK x) s = .next ((s.setReg x (BitVec.ofNat 8 k.val)).setCap .idle).advance := by
  simp only [exec, execLdVxK, h, hk, Bool.false_eq_true, if_false]

theorem toNat_keyByte (k : Key) : (BitVec.ofNat 8 k.val).toNat = k.val := by
  rw [BitVec.toNat_ofNat]
  exact Nat.mod_eq_of_lt (by omega)

theorem reg_deliverKey (s : State) (x q : Reg) (b : Byte) :
    ((s.setReg x b).setCap .idle).advance.reg q = if q = x then b else s.reg q := by
  rw [State.reg_advance, State.reg_setCap, State.reg_setReg]

/-! ### A key press -/

theorem held_keyDown (k q : Key) (choice : Bool) (s : State) :
    (keyDown k choice s).held q = if q = k then true else s.held q := by
  rw [← State.held_setKey s k q true]
  obtain ⟨-, -, h⟩ | ⟨-, h⟩ := keyDown_cases k choice s
  · rw [h]; rfl
  · rw [h]; rfl

theorem captureTone_nonneg : 0 ≤ captureTone := by
  unfold captureTone
  split
  next h => exact h
  next h => exact Rat.neg_le_neg (Rat.le_of_lt (Rat.not_le.mp h))

/-! ### The statements -/

/-- Settles O42: the four cases of the capture state and the captured key's flag. -/
theorem keyWaitFollowsCapture : Obligations.KeyWaitFollowsCapture := by
  intro x s
  refine ⟨decodeWord_ldVxK x, exec_ldVxK_idle x, exec_ldVxK_capturing x, fun k => exec_ldVxK_held x,
    ?delivers⟩
  case delivers =>
    intro k hcap hk
    refine ⟨_, exec_ldVxK_released x hcap hk, ?_, fun q hq => ?_, rfl, pcPast_advance _, rfl⟩
    · rw [reg_deliverKey, if_pos rfl, toNat_keyByte]
    · rw [reg_deliverKey, if_neg hq]

/-- Settles O43: the two cases of a press. -/
theorem keyDownCaptures : Obligations.KeyDownCaptures := by
  intro k choice s
  refine ⟨fun q => held_keyDown k q choice s, fun hcapture => ?_, fun hplain => ?_, captureTone_nonneg⟩
  · obtain ⟨-, -, h⟩ | ⟨hplain, -⟩ := keyDown_cases k choice s
    · rw [h]
    · exact absurd hcapture hplain
  · obtain ⟨hcap, hpress, -⟩ | ⟨-, h⟩ := keyDown_cases k choice s
    · exact absurd ⟨hcap, hpress⟩ hplain
    · rw [h]

end Sys2Proof.Machine
end

section
/-! SUPPORT. Reading the delay timer and requesting a tone (46_timers.md R242, R244, R246). -/

namespace Sys2Proof.Machine

theorem exec_ldVxDt (x : Reg) (s : State) :
    exec (.ldVxDt x) s = .next (s.setReg x s.dtValue).advance := rfl

theorem exec_ldStVx (x : Reg) (s : State) :
    exec (.ldStVx x) s = .next (s.emit (.playTone (toneSeconds (s.reg x)))).advance := rfl

theorem toneSeconds_mul_sixty (b : Byte) : toneSeconds b * 60 = (b.toNat : Rat) :=
  Rat.div_mul_cancel (by decide)

/-- Settles O48: the one register write is of the timer's value. -/
theorem readTimerGivesValue : Obligations.ReadTimerGivesValue := by
  intro x s
  exact ⟨decodeWord_ldVxDt x, _, exec_ldVxDt x s, reg_setReg_advance_same s x _,
    reg_setReg_advance_other s x _, setReg_advance_frame s x _⟩

/-- Settles O49: one event is appended, and its duration is an exact quotient by 60. -/
theorem soundRequestsTone : Obligations.SoundRequestsTone := by
  intro x s
  exact ⟨_, _, exec_ldStVx x s, rfl, toneSeconds_mul_sixty (s.reg x), pcPast_advance _, rfl⟩

end Sys2Proof.Machine
end

section
/-! SUPPORT. The successful load and the reset state (70_reset_and_hazards.md R300, R301; 20_memory.md
R55). -/

namespace Sys2Proof.Machine

theorem load_oversized {p : List Byte} (h : 3584 < p.length) (s : State) :
    load (some p) s = { s with reply := .oversizedProgram } := by
  rw [load, if_neg (by omega), if_pos (show p.length > maxProgram from h)]

theorem load_accepted {p : List Byte} (hne : p ≠ []) (hlen : p.length ≤ 3584) (s : State) :
    load (some p) s = { resetAndCopy p s with reply := .ok } := by
  rw [load, if_neg (mt List.length_eq_zero_iff.mp hne), 
    if_neg (show ¬ p.length > maxProgram from Nat.not_lt.mpr hlen)]

/-- FONT at 0 and zeros elsewhere. -/
theorem Memory.initial_eq (a : Nat) : Memory.initial a = if a < 80 then Config.font a else 0#8 := by
  simp [Memory.initial]

/-- The program at `START`, and elsewhere what an unlisted address reads as. -/
theorem read_loadedMemory {p : List Byte} (hlen : p.length ≤ 3584) (a : Nat) :
    (loadedMemory p).read a =
      if a < 80 then Config.font a else if a < 512 then 0#8
      else if a < 512 + p.length then p.getD (a - 512) 0#8 else 0#8 := by
  have hfit : 512 + p.length ≤ 4096 := by omega
  refine (Memory.read_writeBytes p [] 512 a hfit).trans ?_
  rw [Memory.read_nil, Memory.initial_eq]
  by_cases hin : 512 ≤ a ∧ a < 512 + p.length
  · obtain ⟨hlo, hhi⟩ := hin
    rw [dif_pos ⟨hlo, hhi⟩, if_neg (by omega), if_neg (by omega), if_pos hhi]
    exact List.getElem_eq_getD 0#8
  · rw [dif_neg hin]
    by_cases hlo : a < 512
    · rw [if_pos hlo]
    · have hfont : ¬ a < 80 := by omega
      rw [if_neg hfont, if_neg hfont, if_neg hlo, if_neg (by omega)]

theorem reg_of_replicate {s : State} {b : Byte} (h : s.v = Vector.replicate 16 b) (q : Reg) : s.reg q = b := by
  rw [State.reg]
  simp only [h, Vector.getElem_replicate]

theorem held_of_replicate {s : State} {b : Bool} (h : s.k = Vector.replicate 16 b) (k : Key) :
    s.held k = b := by
  rw [State.held]
  simp only [h, Vector.getElem_replicate]

/-- Settles O51: the two checks of a load, and the fields and bytes its reset writes. -/
theorem loadResetsWholeMachine : Obligations.LoadResetsWholeMachine := by
  intro s
  refine ⟨rfl, rfl, fun p hlong => ?oversized, fun p hne hlen => ?accepted⟩
  case oversized => rw [load_oversized hlong]
  case accepted =>
    rw [load_accepted hne hlen]
    exact ⟨rfl, reg_of_replicate rfl, rfl, rfl, rfl, fun a _ => read_loadedMemory hlen a,
      Display.get_blank, held_of_replicate rfl, rfl, rfl, rfl, rfl, rfl⟩

/-- Settles O52: the zero byte is what `START` reads as anyway, so no cell is listed. -/
theorem resetIsLoadedAndInvariant : Obligations.ResetIsLoadedAndInvariant :=
  ⟨rfl, rfl, fun _ => rfl, fun hcap => absurd rfl hcap⟩

end Sys2Proof.Machine
end

section
/-! SUPPORT. What an instruction can do, said once: it raises a fault of its own, or it leaves a state that
differs from the one before in the fields of the access matrix's columns alone (10_state.md R35). -/

namespace Sys2Proof.Machine

/-! ### The effect of an instruction -/

/-- The fields in which an instruction that raises no fault may change the state. -/
def ChangedBy (j : Instr) (s t : State) : Prop :=
  match j with
  | .sys _ | .jp _ | .jpV0 _ | .seImm _ _ | .sneImm _ _ | .seReg _ _ | .sneReg _ _ | .skp _ | .sknp _ =>
    s.OnlyPc t
  | .ldImm _ _ | .addImm _ _ | .ldReg _ _ | .orReg _ _ | .andReg _ _ | .xorReg _ _ | .addReg _ _
  | .sub _ _ | .shr _ _ | .subn _ _ | .shl _ _ | .rnd _ _ | .ldVxDt _ => s.OnlyRegs t
  | .ldI _ | .addI _ | .ldF _ => s.OnlyIndex t
  | .ret | .call _ => s.OnlyStack t
  | .ldB _ => t = { s with mem := t.mem, pc := t.pc }
  | .stRegs _ => s.OnlyMemory t
  | .ldRegs _ => t = { s with v := t.v, i := t.i, pc := t.pc }
  | .cls => t = { s with d := t.d, events := t.events, pc := t.pc }
  | .drw _ _ _ => t = { s with d := t.d, v := t.v, events := t.events, pc := t.pc }
  | .ldVxK _ => t = { s with v := t.v, cap := t.cap, pc := t.pc }
  | .ldDtVx _ => t = { s with dtArmed := true, dtCount := t.dtCount, dtStamp := t.dtStamp, pc := t.pc }
  | .ldStVx _ => t = { s with events := t.events, pc := t.pc }

/-- What an instruction that raises no fault does to the state, registers, memory and events by their
contents. -/
structure Effect (j : Instr) (s t : State) : Prop where
  frame : ChangedBy j s t
  regs : ∀ q, writesReg j q = false → t.reg q = s.reg q
  stores : ∃ bs : List Byte, bs.length = storeLength j ∧ t.mem = s.mem.writeBytes s.i.toNat bs
  emits : ∃ es : List Event, es.length ≤ 1 ∧ t.events = s.events ++ es

section Effects
variable {j : Instr} {s t : State}

theorem stores_none (hlen : storeLength j = 0) (hmem : t.mem = s.mem) :
    ∃ bs : List Byte, bs.length = storeLength j ∧ t.mem = s.mem.writeBytes s.i.toNat bs :=
  ⟨[], hlen.symm, hmem⟩

theorem emits_none (he : t.events = s.events) :
    ∃ es : List Event, es.length ≤ 1 ∧ t.events = s.events ++ es :=
  ⟨[], Nat.zero_le 1, by rw [he, List.append_nil]⟩

theorem emits_one {e : Event} (he : t.events = s.events ++ [e]) :
    ∃ es : List Event, es.length ≤ 1 ∧ t.events = s.events ++ es :=
  ⟨[e], Nat.le_refl 1, he⟩

/-- An instruction that leaves registers, memory and events alone. -/
theorem effect_of_kept (hframe : ChangedBy j s t) (hv : t.v = s.v) (hlen : storeLength j = 0)
    (hmem : t.mem = s.mem) (he : t.events = s.events) : Effect j s t :=
  ⟨hframe, fun q _ => State.reg_congr hv q, stores_none hlen hmem, emits_none he⟩

theorem effect_skipIf {c : Bool} (hframe : ChangedBy j s (s.skipIf c)) (hlen : storeLength j = 0) :
    Effect j s (s.skipIf c) :=
  effect_of_kept hframe (s.skipIf_v c) hlen (s.skipIf_mem c) (s.skipIf_events c)

theorem effect_setReg {x : Reg} {b : Byte} (hframe : ChangedBy j s (s.setReg x b).advance)
    (hreg : ∀ q, writesReg j q = (q == x)) (hlen : storeLength j = 0) :
    Effect j s (s.setReg x b).advance := by
  refine ⟨hframe, fun q hq => reg_setReg_advance_other s x b q ?_, stores_none hlen rfl, emits_none rfl⟩
  rw [hreg] at hq
  exact beq_eq_false_iff_ne.mp hq

theorem effect_writeFlagLast {x : Reg} {b : Byte} {c : Bool}
    (hframe : ChangedBy j s (s.writeFlagLast x b c).advance)
    (hreg : ∀ q, writesReg j q = (q == x || q == 15)) (hlen : storeLength j = 0) :
    Effect j s (s.writeFlagLast x b c).advance := by
  refine ⟨hframe, fun q hq => ?_, stores_none hlen rfl, emits_none rfl⟩
  rw [hreg, Bool.or_eq_false_iff] at hq
  obtain ⟨hx, hF⟩ := hq
  obtain ⟨hothers, -⟩ := writeFlagLast_advance_frame s x b c
  exact hothers q (beq_eq_false_iff_ne.mp hx) (beq_eq_false_iff_ne.mp hF)

theorem effect_ldRegs {x : Reg} : Effect (.ldRegs x) s
    (State.setI { s with v := loadRegs s.v 0 (s.mem.readBytes s.i.toNat (x.val + 1)) }
      (indexPast s.i x)).advance := by
  refine ⟨rfl, fun q hq => ?_, stores_none rfl rfl, emits_none rfl⟩
  exact (getElem_loadRegs_readBytes s.v s.mem s.i.toNat x q).trans (if_neg (of_decide_eq_false hq))

theorem effect_drw {x y : Reg} {n : Fin 16} : Effect (.drw x y n) s (s.draw x y n.val).advance :=
  ⟨draw_frame s x y n.val, fun _ hq => reg_draw_other s x y n.val (beq_eq_false_iff_ne.mp hq),
    stores_none rfl rfl, emits_one rfl⟩

/-- Each case of `FX0A` writes at most the register, the capture state and `PC`. -/
theorem exec_ldVxK_effect (x : Reg) (s : State) :
    ∃ t, exec (.ldVxK x) s = .next t ∧ Effect (.ldVxK x) s t := by
  match hcap : s.cap with
  | .idle => exact ⟨_, exec_ldVxK_idle x hcap, effect_of_kept rfl rfl rfl rfl rfl⟩
  | .capturing => exact ⟨_, exec_ldVxK_capturing x hcap, effect_of_kept rfl rfl rfl rfl rfl⟩
  | .captured k =>
    match hk : s.held k with
    | true => exact ⟨_, exec_ldVxK_held x hcap hk, effect_of_kept rfl rfl rfl rfl rfl⟩
    | false =>
      refine ⟨_, exec_ldVxK_released x hcap hk, rfl, fun q hq => ?_, stores_none rfl rfl, emits_none rfl⟩
      rw [reg_deliverKey, if_neg (beq_eq_false_iff_ne.mp hq)]

/-- Everything an instruction can do: its effect, or a fault of its own with nothing else changed. -/
theorem exec_cases (j : Instr) (s : State) : ∃ t, exec j s = .next t ∧
    (Effect j s t ∨ (mayFault j = true ∧ ∃ f, t = s.faulted f)) := by
  cases j with
  | cls =>
    exact ⟨_, exec_cls s, .inl ⟨rfl, fun _ _ => rfl, stores_none rfl rfl, emits_one rfl⟩⟩
  | ret =>
    match hstack : s.stack with
    | [] => exact ⟨_, exec_ret_of_empty hstack, .inr ⟨rfl, _, rfl⟩⟩
    | a :: rest => exact ⟨_, exec_ret_of_cons hstack, .inl (effect_of_kept rfl rfl rfl rfl rfl)⟩
  | sys nnn => exact ⟨_, exec_sys nnn s, .inr ⟨rfl, _, rfl⟩⟩
  | jp nnn => exact ⟨_, exec_jp nnn s, .inl (effect_of_kept rfl rfl rfl rfl rfl)⟩
  | call nnn => exact ⟨_, exec_call nnn s, .inl (effect_of_kept rfl rfl rfl rfl rfl)⟩
  | seImm x nn => exact ⟨_, exec_seImm x nn s, .inl (effect_skipIf (onlyPc_skipIf s _) rfl)⟩
  | sneImm x nn => exact ⟨_, exec_sneImm x nn s, .inl (effect_skipIf (onlyPc_skipIf s _) rfl)⟩
  | seReg x y => exact ⟨_, exec_seReg x y s, .inl (effect_skipIf (onlyPc_skipIf s _) rfl)⟩
  | ldImm x nn => exact ⟨_, exec_ldImm x nn s, .inl (effect_setReg rfl (fun _ => rfl) rfl)⟩
  | addImm x nn => exact ⟨_, exec_addImm x nn s, .inl (effect_setReg rfl (fun _ => rfl) rfl)⟩
  | ldReg x y => exact ⟨_, exec_ldReg x y s, .inl (effect_setReg rfl (fun _ => rfl) rfl)⟩
  | orReg x y => exact ⟨_, exec_orReg x y s, .inl (effect_setReg rfl (fun _ => rfl) rfl)⟩
  | andReg x y => exact ⟨_, exec_andReg x y s, .inl (effect_setReg rfl (fun _ => rfl) rfl)⟩
  | xorReg x y => exact ⟨_, exec_xorReg x y s, .inl (effect_setReg rfl (fun _ => rfl) rfl)⟩
  | addReg x y => exact ⟨_, exec_addReg x y s, .inl (effect_writeFlagLast rfl (fun _ => rfl) rfl)⟩
  | sub x y => exact ⟨_, exec_sub x y s, .inl (effect_writeFlagLast rfl (fun _ => rfl) rfl)⟩
  | shr x y => exact ⟨_, exec_shr x y s, .inl (effect_writeFlagLast rfl (fun _ => rfl) rfl)⟩
  | subn x y => exact ⟨_, exec_subn x y s, .inl (effect_writeFlagLast rfl (fun _ => rfl) rfl)⟩
  | shl x y => exact ⟨_, exec_shl x y s, .inl (effect_writeFlagLast rfl (fun _ => rfl) rfl)⟩
  | sneReg x y => exact ⟨_, exec_sneReg x y s, .inl (effect_skipIf (onlyPc_skipIf s _) rfl)⟩
  | ldI nnn => exact ⟨_, exec_ldI nnn s, .inl (effect_of_kept rfl rfl rfl rfl rfl)⟩
  | jpV0 nnn => exact ⟨_, exec_jpV0 nnn s, .inl (effect_of_kept rfl rfl rfl rfl rfl)⟩
  | rnd x nn => exact ⟨_, exec_rnd x nn s, .inl (effect_setReg rfl (fun _ => rfl) rfl)⟩
  | drw x y n =>
    by_cases h : n.val = 0 ∨ s.i.toNat + n.val ≤ 4096
    · exact ⟨_, exec_drw h, .inl effect_drw⟩
    · exact ⟨_, exec_drw_fault (by omega) (by omega), .inr ⟨rfl, _, rfl⟩⟩
  | skp x => exact ⟨_, exec_skp (k := lowNibble (s.reg x)) rfl, .inl (effect_skipIf (onlyPc_skipIf s _) rfl)⟩
  | sknp x => exact ⟨_, exec_sknp (k := lowNibble (s.reg x)) rfl, .inl (effect_skipIf (onlyPc_skipIf s _) rfl)⟩
  | ldVxDt x => exact ⟨_, exec_ldVxDt x s, .inl (effect_setReg rfl (fun _ => rfl) rfl)⟩
  | ldVxK x =>
    obtain ⟨t, ht, heffect⟩ := exec_ldVxK_effect x s
    exact ⟨t, ht, .inl heffect⟩
  | ldDtVx x => exact ⟨_, exec_ldDtVx x s, .inl (effect_of_kept rfl rfl rfl rfl rfl)⟩
  | ldStVx x =>
    exact ⟨_, exec_ldStVx x s, .inl ⟨rfl, fun _ _ => rfl, stores_none rfl rfl, emits_one rfl⟩⟩
  | addI x => exact ⟨_, exec_addI x s, .inl (effect_of_kept rfl rfl rfl rfl rfl)⟩
  | ldF x => exact ⟨_, exec_ldF x s, .inl (effect_of_kept rfl rfl rfl rfl rfl)⟩
  | ldB x =>
    by_cases h : s.i.toNat + 2 < 4096
    · exact ⟨_, exec_ldB h, .inl ⟨rfl, fun _ _ => rfl, ⟨_, rfl, rfl⟩, emits_none rfl⟩⟩
    · exact ⟨_, exec_ldB_fault (by omega), .inr ⟨rfl, _, rfl⟩⟩
  | stRegs x =>
    by_cases h : s.i.toNat + x.val < 4096
    · exact ⟨_, exec_stRegs h,
        .inl ⟨rfl, fun _ _ => rfl, ⟨_, length_regsUpTo s x, rfl⟩, emits_none rfl⟩⟩
    · exact ⟨_, exec_stRegs_fault (by omega), .inr ⟨rfl, _, rfl⟩⟩
  | ldRegs x =>
    by_cases h : s.i.toNat + x.val < 4096
    · exact ⟨_, exec_ldRegs h, .inl effect_ldRegs⟩
    · exact ⟨_, exec_ldRegs_fault (by omega), .inr ⟨rfl, _, rfl⟩⟩

theorem exec_next_cases (h : exec j s = .next t) :
    Effect j s t ∨ (mayFault j = true ∧ ∃ f, t = s.faulted f) := by
  obtain ⟨t', ht', hcases⟩ := exec_cases j s
  obtain rfl := Host.Outcome.next.inj (ht'.symm.trans h)
  exact hcases

/-! ### The columns of the access matrix -/

theorem ChangedBy.index_eq (h : ChangedBy j s t) (hw : writesIndex j = false) : t.i = s.i := by
  cases j
  case ldI | addI | ldF | stRegs | ldRegs => exact nomatch hw
  all_goals exact (congrArg State.i h).trans rfl

theorem ChangedBy.stack_eq (h : ChangedBy j s t) (hret : j ≠ .ret) (hcall : ∀ a, j ≠ .call a) :
    t.stack = s.stack := by
  cases j
  case ret => exact absurd rfl hret
  case call a => exact absurd rfl (hcall a)
  all_goals exact (congrArg State.stack h).trans rfl

theorem ChangedBy.display_eq (h : ChangedBy j s t) (hcls : j ≠ .cls) (hdrw : ∀ x y n, j ≠ .drw x y n) :
    t.d = s.d := by
  cases j
  case cls => exact absurd rfl hcls
  case drw x y n => exact absurd rfl (hdrw x y n)
  all_goals exact (congrArg State.d h).trans rfl

theorem ChangedBy.capture_eq (h : ChangedBy j s t) (hkey : ∀ x, j ≠ .ldVxK x) : t.cap = s.cap := by
  cases j
  case ldVxK x => exact absurd rfl (hkey x)
  all_goals exact (congrArg State.cap h).trans rfl

theorem ChangedBy.timer_eq (h : ChangedBy j s t) (hdt : ∀ x, j ≠ .ldDtVx x) :
    t.dtArmed = s.dtArmed ∧ t.dtCount = s.dtCount ∧ t.dtStamp = s.dtStamp := by
  cases j
  case ldDtVx x => exact absurd rfl (hdt x)
  all_goals
    exact ⟨(congrArg State.dtArmed h).trans rfl, (congrArg State.dtCount h).trans rfl,
      (congrArg State.dtStamp h).trans rfl⟩

theorem ChangedBy.events_eq (h : ChangedBy j s t) (hcls : j ≠ .cls) (hdrw : ∀ x y n, j ≠ .drw x y n)
    (hst : ∀ x, j ≠ .ldStVx x) : t.events = s.events := by
  cases j
  case cls => exact absurd rfl hcls
  case drw x y n => exact absurd rfl (hdrw x y n)
  case ldStVx x => exact absurd rfl (hst x)
  all_goals exact (congrArg State.events h).trans rfl

theorem ChangedBy.keys_eq (h : ChangedBy j s t) : t.k = s.k := by
  cases j
  all_goals exact (congrArg State.k h).trans rfl

theorem ChangedBy.status_eq (h : ChangedBy j s t) : t.status = s.status ∧ t.reply = s.reply := by
  cases j
  all_goals exact ⟨(congrArg State.status h).trans rfl, (congrArg State.reply h).trans rfl⟩

theorem ChangedBy.inputs_eq (h : ChangedBy j s t) : t.inp = s.inp ∧ t.calls = s.calls ∧ t.draws = s.draws := by
  cases j
  all_goals
    exact ⟨(congrArg State.inp h).trans rfl, (congrArg State.calls h).trans rfl,
      (congrArg State.draws h).trans rfl⟩

theorem State.held_congr {u v : State} (h : v.k = u.k) (k : Key) : v.held k = u.held k := by
  rw [State.held, State.held]
  simp only [h]

theorem Effect.bytesKeptOutside (h : Effect j s t) : s.BytesKeptOutside t s.i.toNat (storeLength j) := by
  obtain ⟨bs, hlen, hmem⟩ := h.stores
  rw [← hlen]
  exact bytesKeptOutside_of_writeBytes hmem

end Effects

/-! ### The statements -/

/-- Settles O12: an instruction's effect and its fault are both next states. -/
theorem everyInstructionAnswersNext : Obligations.EveryInstructionAnswersNext := by
  intro j s
  obtain ⟨t, ht, -⟩ := exec_cases j s
  exact ⟨t, ht⟩

/-- Settles O56: an effect keeps every column that is not the instruction's, and a fault keeps them all. -/
theorem instructionsKeepAccessMatrix : Obligations.InstructionsKeepAccessMatrix := by
  intro j s t h
  obtain heffect | ⟨hmay, f, rfl⟩ := exec_next_cases h
  · have hframe := heffect.frame
    exact ⟨heffect.regs, hframe.index_eq, heffect.bytesKeptOutside, hframe.stack_eq, hframe.display_eq,
      hframe.capture_eq, hframe.timer_eq, hframe.events_eq, State.held_congr hframe.keys_eq,
      .inl hframe.status_eq, hframe.inputs_eq⟩
  · exact ⟨fun _ _ => rfl, fun _ => rfl, fun _ _ => rfl, fun _ _ => rfl, fun _ _ => rfl, fun _ => rfl,
      fun _ => ⟨rfl, rfl, rfl⟩, fun _ _ _ => rfl, fun _ => rfl, .inr ⟨hmay, f, rfl⟩, rfl, rfl, rfl⟩

/-- Settles O57: the stores of an effect are one run of byte writes from `I` on, and a fault stores none. -/
theorem onlyStoresWriteMemory : Obligations.OnlyStoresWriteMemory := by
  intro j s t h
  obtain heffect | ⟨-, f, rfl⟩ := exec_next_cases h
  · exact heffect.bytesKeptOutside
  · exact fun _ _ => rfl

end Sys2Proof.Machine
end

section
/-! SUPPORT. The cycle's opening and its steps (40_cycle.md R101 to R106; 46_timers.md R241; 20_memory.md
R53). -/

namespace Sys2Proof.Machine

/-! ### The opening of a cycle -/

theorem takeInputs_frame (s : State) : s.takeInputs =
    { s with inp := s.takeInputs.inp, calls := s.takeInputs.calls, draws := s.takeInputs.draws } := by
  unfold State.takeInputs
  split
  · rfl
  · rfl

theorem dtUpdate_frame (s : State) (t : Time) : s.dtUpdate t =
    { s with dtArmed := (s.dtUpdate t).dtArmed, dtCount := (s.dtUpdate t).dtCount,
             dtStamp := (s.dtUpdate t).dtStamp } := by
  obtain ⟨-, h⟩ | ⟨-, -, h⟩ | ⟨-, -, h⟩ := dtUpdate_cases s t
  · rw [h]
  · rw [h]
  · rw [h]

theorem startCycle_frame (s : State) : s.startCycle = { s with
    dtArmed := s.startCycle.dtArmed, dtCount := s.startCycle.dtCount, dtStamp := s.startCycle.dtStamp,
    events := [], reply := .ok, inp := s.startCycle.inp, calls := s.startCycle.calls,
    draws := s.startCycle.draws } := by
  refine (dtUpdate_frame s.takeInputs.opened s.takeInputs.inp.tUpdate).trans ?_
  rw [State.startCycle_inp, State.startCycle_calls, State.startCycle_draws]
  exact congrArg (fun u : State => { u.opened with
    dtArmed := s.startCycle.dtArmed, dtCount := s.startCycle.dtCount, dtStamp := s.startCycle.dtStamp })
    (takeInputs_frame s)

/-- The timer after a cycle's opening, in the three cases of the update. -/
theorem startCycle_timer_cases (s : State) :
    (s.dtArmed = false ∧ s.startCycle.dtArmed = false ∧ s.startCycle.dtCount = s.dtCount ∧
      s.startCycle.dtStamp = s.dtStamp) ∨
    (s.dtArmed = true ∧ s.dtCount.toNat ≤ ticks s.dtStamp s.startCycle.inp.tUpdate ∧
      s.startCycle.dtArmed = false ∧ s.startCycle.dtCount = 0#8 ∧ s.startCycle.dtStamp = s.dtStamp) ∨
    (s.dtArmed = true ∧ ticks s.dtStamp s.startCycle.inp.tUpdate < s.dtCount.toNat ∧
      s.startCycle.dtArmed = true ∧
      s.startCycle.dtCount.toNat = s.dtCount.toNat - ticks s.dtStamp s.startCycle.inp.tUpdate ∧
      s.startCycle.dtStamp = s.startCycle.inp.tUpdate) := by
  have hupdate := dtUpdate_cases s.takeInputs.opened s.takeInputs.inp.tUpdate
  rw [State.startCycle_inp, State.startCycle]
  simp only [State.opened_dtArmed, State.opened_dtStamp, State.opened_dtCount, State.takeInputs_dtArmed,
    State.takeInputs_dtStamp, State.takeInputs_dtCount] at hupdate
  obtain ⟨harmed, h⟩ | ⟨harmed, hn, h⟩ | ⟨harmed, hn, h⟩ := hupdate
  · exact .inl ⟨harmed, by simp [h, harmed]⟩
  · exact .inr (.inl ⟨harmed, hn, by simp [h]⟩)
  · refine .inr (.inr ⟨harmed, hn, ?_⟩)
    have hlt : s.dtCount.toNat < 256 := s.dtCount.isLt
    have hleft : s.dtCount.toNat - ticks s.dtStamp s.takeInputs.inp.tUpdate < 256 := by omega
    simp [h, harmed, Nat.mod_eq_of_lt hleft]

theorem le_notBefore (t reading : Time) : t ≤ notBefore t reading := by
  unfold notBefore
  split
  next h => exact h
  next => exact Rat.le_refl

theorem freeInputs_dutiful (n : Nat) (t : Time) : (freeInputs n t).dutiful t :=
  ⟨le_notBefore _ _, le_notBefore _ _⟩

/-! ### The step of a running machine -/

theorem step_of_running {s : State} (hrun : s.status = .running) (hnext : s.cycleNext) :
    step s = fetchExecute s.startCycle := by
  rw [step_eq_cycle hnext, cycle, hrun]

theorem step_of_fetch {s : State} {w : Word} {j : Instr} (hrun : s.status = .running) (hnext : s.cycleNext)
    (hfetch : s.fetch = some w) (hdecode : decodeWord w = .ok j) : step s = exec j s.startCycle := by
  rw [step_of_running hrun hnext]
  simp only [fetchExecute, fetch_startCycle, hfetch, hdecode]

theorem step_of_fetch_fault {s : State} (hrun : s.status = .running) (hnext : s.cycleNext)
    (hfetch : s.fetch = none) : step s = .next (s.startCycle.faulted (.fetchOutOfBounds s.pc)) := by
  rw [step_of_running hrun hnext]
  simp only [fetchExecute, fetch_startCycle, hfetch, raise, State.startCycle_pc]

theorem step_of_reject {s : State} {w : Word} (hrun : s.status = .running) (hnext : s.cycleNext)
    (hfetch : s.fetch = some w) (hdecode : decodeWord w = .error (.unrecognized w)) :
    step s = .next (s.startCycle.faulted (.unrecognizedInstruction w)) := by
  rw [step_of_running hrun hnext]
  simp only [fetchExecute, fetch_startCycle, hfetch, hdecode, raiseReject, raise]

theorem fetch_of_bytes {s : State} {w : Word} (hpc : s.pc.toNat + 1 < 4096)
    (hw : w.toNat = (s.mem.read s.pc.toNat).toNat * 256 + (s.mem.read (s.pc.toNat + 1)).toNat) :
    s.fetch = some w := by
  rw [fetch_eq_some hpc]
  exact congrArg some (BitVec.eq_of_toNat_eq ((wordOfBytes_toNat _ _).trans hw.symm))

theorem decodeWord_of_decodeBytes {hi lo : Byte} {j : Instr} (h : decodeBytes [hi, lo] = .ok (j, [])) :
    decodeWord (wordOfBytes hi lo) = .ok j := by
  unfold decodeBytes at h
  match hd : decodeWord (wordOfBytes hi lo) with
  | .ok i => simp only [hd, Except.ok.injEq, Prod.mk.injEq, and_true] at h; rw [h]
  | .error r => simp only [hd, reduceCtorEq] at h

/-- A cycle that answers a next state ran on a running machine, and faulted, or executed the instruction
its fetch decoded. -/
theorem cycle_step_cases {s t : State} (hnext : s.cycleNext) (h : step s = .next t) :
    s.status = .running ∧ ((∃ f, t = s.startCycle.faulted f) ∨
      ∃ w j, s.fetch = some w ∧ decodeWord w = .ok j ∧ exec j s.startCycle = .next t) := by
  obtain ⟨hrun, hfe⟩ := cycle_next ((step_eq_cycle hnext).symm.trans h)
  refine ⟨hrun, ?_⟩
  obtain ⟨-, he⟩ | ⟨w, -, -, he⟩ | ⟨w, j, hfetch, hdecode, he⟩ := fetchExecute_cases s.startCycle
  · exact .inl ⟨_, Host.Outcome.next.inj (hfe.symm.trans he)⟩
  · exact .inl ⟨_, Host.Outcome.next.inj (hfe.symm.trans he)⟩
  · exact .inr ⟨w, j, (fetch_startCycle s).symm.trans hfetch, hdecode, he.symm.trans hfe⟩

/-- A cycle that answers a next state faulted on the opened cycle, or had an instruction's effect on it. -/
theorem cycle_step_effect {s t : State} (hnext : s.cycleNext) (h : step s = .next t) :
    s.status = .running ∧ ((∃ f, t = s.startCycle.faulted f) ∨ ∃ j, Effect j s.startCycle t) := by
  obtain ⟨hrun, hfault | ⟨w, j, -, -, hexec⟩⟩ := cycle_step_cases hnext h
  · exact ⟨hrun, .inl hfault⟩
  · obtain heffect | ⟨-, hfault⟩ := exec_next_cases hexec
    · exact ⟨hrun, .inr ⟨j, heffect⟩⟩
    · exact ⟨hrun, .inl hfault⟩

/-- An effect on a running machine leaves it running. -/
theorem Effect.status_ne_faulted {j : Instr} {s t : State} (h : Effect j s t) (hrun : s.status = .running)
    (f : Fault) : t.status ≠ .faulted f := by
  obtain ⟨hstatus, -⟩ := h.frame.status_eq
  rw [hstatus, hrun]
  exact fun hf => nomatch hf

/-! ### The statements -/

/-- Settles O6: the two bytes are the fetched word, which decodes to the instruction. -/
theorem stepRunsDecodedInstruction : Obligations.StepRunsDecodedInstruction := by
  intro s j hrun hnext hpc hbytes
  exact step_of_fetch hrun hnext (fetch_eq_some hpc) (decodeWord_of_decodeBytes hbytes)

/-- Settles O7: the opening's frame, and the two sources of its inputs. -/
theorem cycleOpening : Obligations.CycleOpening := by
  intro s
  refine ⟨startCycle_frame s, fun inp rest hcalls => ?listed, fun hcalls => ?free⟩
  case listed => simp [State.takeInputs, hcalls]
  case free =>
    have hinputs : s.takeInputs = { s with inp := freeInputs s.draws s.inp.tStart, draws := s.draws + 1 } := by
      simp [State.takeInputs, hcalls]
    rw [State.startCycle_calls, State.startCycle_draws, State.startCycle_inp, hinputs]
    exact ⟨hcalls, rfl, rfl, freeInputs_dutiful s.draws s.inp.tStart⟩

/-- Settles O8: the three cases of the update; a second counts 60 ticks, enough for a countdown of 60. -/
theorem cycleUpdatesTimerFirst : Obligations.CycleUpdatesTimerFirst := by
  intro s
  dsimp only
  obtain ⟨harmed, htimer⟩ | ⟨harmed, hn, hoff, hzero, hstamp⟩ | ⟨harmed, hn, hon, hcount, hstamp⟩ :=
    startCycle_timer_cases s
  · exact ⟨fun _ => htimer, fun h => absurd (harmed.symm.trans h) (by decide),
      fun h => absurd (harmed.symm.trans h) (by decide)⟩
  · refine ⟨fun h => absurd (harmed.symm.trans h) (by decide), fun _ => ?_, fun _ _ _ => ⟨hoff, hzero⟩⟩
    rw [decide_eq_false (Nat.not_lt.mpr hn), if_neg (Nat.not_lt.mpr hn), hzero, Nat.sub_eq_zero_of_le hn]
    exact ⟨hoff, rfl, hstamp⟩
  · refine ⟨fun h => absurd (harmed.symm.trans h) (by decide), fun _ => ?_, fun _ hsmall hsecond => ?_⟩
    · rw [decide_eq_true hn, if_pos hn]
      exact ⟨hon, hcount, hstamp⟩
    · have hsixty := sixty_le_ticks _ _ hsecond
      omega

/-- Settles O9: each fault comes before the next stage, on the opened cycle. -/
theorem fetchAndDecodeFaults : Obligations.FetchAndDecodeFaults := by
  intro s hrun hnext
  exact ⟨fun hpc => step_of_fetch_fault hrun hnext (fetch_eq_none_iff.mpr hpc),
    fun w hpc hw hdecode => step_of_reject hrun hnext (fetch_of_bytes hpc hw) hdecode⟩

/-- Settles O10: a cycle by the machine's status, and the host's other calls by their list. -/
theorem stepStopsOnlyOnRefusal : Obligations.StepStopsOnlyOnRefusal := by
  intro s
  refine ⟨fun hnext hstatus => ?unloaded, fun f hnext hstatus => ?faulted, fun hnext hrun => ?running,
    fun hcall => ?call⟩
  case unloaded => rw [step_eq_cycle hnext, cycle, hstatus]
  case faulted => rw [step_eq_cycle hnext, cycle, hstatus]
  case running =>
    rw [step_of_running hrun hnext]
    obtain ⟨-, he⟩ | ⟨w, -, -, he⟩ | ⟨w, j, -, -, he⟩ := fetchExecute_cases s.startCycle
    · exact ⟨_, he⟩
    · exact ⟨_, he⟩
    · rw [he]
      exact everyInstructionAnswersNext j s.startCycle
  case call =>
    obtain ⟨_, _, _, -, h⟩ | ⟨_, _, -, h⟩ | ⟨_, _, -, h⟩ | ⟨hnext, -⟩ := step_cases s
    · exact ⟨_, h⟩
    · exact ⟨_, h⟩
    · exact ⟨_, h⟩
    · exact absurd hnext hcall

/-- Settles O11: the step takes the call from the list, whatever the status is. -/
theorem hostCallsRunBetweenCycles : Obligations.HostCallsRunBetweenCycles := by
  intro s rest
  refine ⟨fun k choice hcalls => ?_, fun k hcalls => ?_, fun p hcalls => ?_⟩
  · rw [step, hcalls]; rfl
  · rw [step, hcalls]; rfl
  · rw [step, hcalls]; rfl

/-- Settles O54: the opened cycle has no event, an effect appends at most one to it, and a fault none. -/
theorem cycleEmitsAtMostOneEvent : Obligations.CycleEmitsAtMostOneEvent := by
  intro s t hnext h
  obtain ⟨hrun, ⟨f, rfl⟩ | ⟨j, heffect⟩⟩ := cycle_step_effect hnext h
  · have hempty : (s.startCycle.faulted f).events = [] := State.startCycle_events s
    rw [hempty]
    exact ⟨Nat.zero_le 1, fun _ _ => rfl⟩
  · obtain ⟨es, hlen, hevents⟩ := heffect.emits
    rw [State.startCycle_events, List.nil_append] at hevents
    rw [hevents]
    exact ⟨hlen, fun f hf => absurd hf (heffect.status_ne_faulted ((State.startCycle_status s).trans hrun) f)⟩

/-- Settles O55: an effect leaves the machine running, so a faulting cycle is one of the faults. -/
theorem faultsArePrecise : Obligations.FaultsArePrecise := by
  intro s t f hnext h hf
  obtain ⟨hrun, ⟨f', rfl⟩ | ⟨j, heffect⟩⟩ := cycle_step_effect hnext h
  · obtain rfl : f' = f := Status.faulted.inj hf
    rfl
  · exact absurd hf (heffect.status_ne_faulted ((State.startCycle_status s).trans hrun) f)

end Sys2Proof.Machine
end

section
/-! SUPPORT. The invariant of the machine (10_state.md R30, 45_keypad.md R228, log 13): each part is kept by
every transaction. -/

namespace Sys2Proof.Machine

/-- The invariant reads the memory, the timer, `PC` and whether a capture is on, and no other field. -/
theorem inv_of_kept {s t : State} (h : s.Inv) (hmem : t.mem = s.mem) (harmed : t.dtArmed = s.dtArmed)
    (hcount : t.dtCount = s.dtCount) (hpc : t.pc = s.pc) (hcap : t.cap ≠ .idle → s.cap ≠ .idle) : t.Inv := by
  obtain ⟨hcanonical, hzero, hwait⟩ := h
  refine ⟨?canonical, ?zero, ?wait⟩
  case canonical => rw [State.MemoryCanonical, hmem]; exact hcanonical
  case zero => rw [State.DisarmedIsZero, harmed, hcount]; exact hzero
  case wait =>
    intro hon
    obtain ⟨w, x, hfetch, hdecode⟩ := hwait (hcap hon)
    exact ⟨w, x, (fetch_congr hpc hmem).trans hfetch, hdecode⟩

/-! ### The host's calls -/

theorem inv_keyDown {s : State} (h : s.Inv) (k : Key) (choice : Bool) : (keyDown k choice s).Inv := by
  obtain ⟨hcap, -, he⟩ | ⟨-, he⟩ := keyDown_cases k choice s
  · rw [he]
    exact inv_of_kept h rfl rfl rfl rfl fun _ => by rw [hcap]; exact fun hidle => nomatch hidle
  · rw [he]
    exact inv_of_kept h rfl rfl rfl rfl id

theorem inv_keyUp {s : State} (h : s.Inv) (k : Key) : (keyUp k s).Inv :=
  inv_of_kept h rfl rfl rfl rfl id

theorem inv_load {s : State} (h : s.Inv) (p : Option (List Byte)) : (load p s).Inv := by
  obtain ⟨-, he⟩ | ⟨_, -, -, he⟩ | ⟨bs, -, -, -, he⟩ := load_cases p s
  · rw [he]
    exact inv_of_kept h rfl rfl rfl rfl id
  · rw [he]
    exact inv_of_kept h rfl rfl rfl rfl id
  · rw [he]
    exact ⟨wf_loadedMemory bs, fun _ => rfl, fun hon => absurd rfl hon⟩

/-! ### The cycle -/

theorem inv_startCycle {s : State} (h : s.Inv) : s.startCycle.Inv := by
  obtain ⟨hcanonical, hzero, hwait⟩ := h
  refine ⟨?canonical, ?zero, ?wait⟩
  case canonical => rw [State.MemoryCanonical, State.startCycle_mem]; exact hcanonical
  case zero =>
    intro hoff
    obtain ⟨harmed, -, hcount, -⟩ | ⟨-, -, -, hcount, -⟩ | ⟨-, -, hon, -⟩ := startCycle_timer_cases s
    · exact hcount.trans (hzero harmed)
    · exact hcount
    · exact absurd (hoff.symm.trans hon) (by decide)
  case wait => rw [State.CaptureAtKeyWait, State.startCycle_cap, fetch_startCycle]; exact hwait

/-- While its capture is on, `FX0A` stays where it is. -/
theorem exec_ldVxK_keeps_pc {x : Reg} {s t : State} (h : exec (.ldVxK x) s = .next t) (hon : t.cap ≠ .idle) :
    t.pc = s.pc := by
  match hcap : s.cap with
  | .idle =>
    obtain rfl := Host.Outcome.next.inj ((exec_ldVxK_idle x hcap).symm.trans h)
    rfl
  | .capturing =>
    obtain rfl := Host.Outcome.next.inj ((exec_ldVxK_capturing x hcap).symm.trans h)
    rfl
  | .captured k =>
    match hk : s.held k with
    | true =>
      obtain rfl := Host.Outcome.next.inj ((exec_ldVxK_held x hcap hk).symm.trans h)
      rfl
    | false =>
      obtain rfl := Host.Outcome.next.inj ((exec_ldVxK_released x hcap hk).symm.trans h)
      exact absurd rfl hon

theorem Effect.memoryCanonical {j : Instr} {s t : State} (h : Effect j s t) (hs : s.MemoryCanonical) :
    t.MemoryCanonical := by
  obtain ⟨bs, -, hmem⟩ := h.stores
  rw [State.MemoryCanonical, hmem]
  exact Memory.wf_writeBytes bs s.mem s.i.toNat hs

theorem Effect.mem_eq {j : Instr} {s t : State} (h : Effect j s t) (hlen : storeLength j = 0) :
    t.mem = s.mem := by
  obtain ⟨bs, hbs, hmem⟩ := h.stores
  obtain rfl : bs = [] := List.length_eq_zero_iff.mp (hbs.trans hlen)
  exact hmem

/-- `FX15` arms the timer; every other instruction leaves it alone. -/
theorem Effect.disarmedIsZero {j : Instr} {s t : State} (h : Effect j s t) (hs : s.DisarmedIsZero) :
    t.DisarmedIsZero := by
  by_cases hdt : ∃ x, j = .ldDtVx x
  · obtain ⟨x, rfl⟩ := hdt
    have hon : t.dtArmed = true := (congrArg State.dtArmed h.frame).trans rfl
    exact fun hoff => absurd (hoff.symm.trans hon) (by decide)
  · obtain ⟨harmed, hcount, -⟩ := h.frame.timer_eq (not_exists.mp hdt)
    rw [State.DisarmedIsZero, harmed, hcount]
    exact hs

/-- A capture that is on after an instruction is that of an `FX0A`, which stayed at `PC`: any other
instruction leaves the capture state alone, and by the invariant it stands where no capture is on. -/
theorem captureAtKeyWait_of_exec {j : Instr} {s t : State} {w : Word} (hs : s.CaptureAtKeyWait)
    (hfetch : s.fetch = some w) (hdecode : decodeWord w = .ok j) (hexec : exec j s = .next t)
    (heffect : Effect j s t) : t.CaptureAtKeyWait := by
  intro hon
  by_cases hkey : ∃ x, j = .ldVxK x
  · obtain ⟨x, rfl⟩ := hkey
    exact ⟨w, x, (fetch_congr (exec_ldVxK_keeps_pc hexec hon) (heffect.mem_eq rfl)).trans hfetch, hdecode⟩
  · rw [heffect.frame.capture_eq (not_exists.mp hkey)] at hon
    obtain ⟨w', x, hfetch', hdecode'⟩ := hs hon
    obtain rfl : w = w' := Option.some.inj (hfetch.symm.trans hfetch')
    exact absurd ⟨x, Except.ok.inj (hdecode.symm.trans hdecode')⟩ hkey

theorem inv_cycle {s t : State} (h : s.Inv) (hnext : s.cycleNext) (hstep : step s = .next t) : t.Inv := by
  have hopened := inv_startCycle h
  obtain ⟨-, ⟨f, rfl⟩ | ⟨w, j, hfetch, hdecode, hexec⟩⟩ := cycle_step_cases hnext hstep
  · exact inv_of_kept hopened rfl rfl rfl rfl id
  · obtain heffect | ⟨-, f, rfl⟩ := exec_next_cases hexec
    · obtain ⟨hcanonical, hzero, hwait⟩ := hopened
      exact ⟨heffect.memoryCanonical hcanonical, heffect.disarmedIsZero hzero,
        captureAtKeyWait_of_exec hwait ((fetch_startCycle s).trans hfetch) hdecode hexec heffect⟩
    · exact inv_of_kept hopened rfl rfl rfl rfl id

/-- Settles O53: the four kinds of transaction, each on the state it opens. -/
theorem stepKeepsInvariant : Obligations.StepKeepsInvariant := by
  intro s t h hstep
  have hopened (rest : List Call) : (State.opened { s with calls := rest }).Inv :=
    inv_of_kept h rfl rfl rfl rfl id
  obtain ⟨k, choice, rest, -, he⟩ | ⟨k, rest, -, he⟩ | ⟨p, rest, -, he⟩ | ⟨hnext, -⟩ := step_cases s
  · obtain rfl := Host.Outcome.next.inj (he.symm.trans hstep)
    exact inv_keyDown (hopened rest) k choice
  · obtain rfl := Host.Outcome.next.inj (he.symm.trans hstep)
    exact inv_keyUp (hopened rest) k
  · obtain rfl := Host.Outcome.next.inj (he.symm.trans hstep)
    exact inv_load (hopened rest) p
  · exact inv_cycle h hnext hstep

end Sys2Proof.Machine
end

section
/-! SUPPORT. A key wait over several transactions (45_keypad.md R220, R226, R227): how a press and its release
end it, and what keeps it going. -/

namespace Sys2Proof.Machine

/-! ### The cycle of a wait -/

theorem held_startCycle (s : State) (k : Key) : s.startCycle.held k = s.held k :=
  State.held_congr (State.startCycle_k s) k

theorem waitsForKey_startCycle {s : State} (h : s.WaitsForKey) : s.startCycle.WaitsForKey := by
  simpa only [State.WaitsForKey, State.startCycle_cap, held_startCycle] using h

theorem exec_ldVxK_waiting (x : Reg) {s : State} (h : s.WaitsForKey) : exec (.ldVxK x) s = .next s := by
  obtain hcap | ⟨k, hcap, hk⟩ := h
  · exact exec_ldVxK_capturing x hcap
  · exact exec_ldVxK_held x hcap hk

/-- While the wait goes on, a cycle is its opening alone. -/
theorem step_of_waiting {s : State} {w : Word} {x : Reg} (hrun : s.status = .running) (hnext : s.cycleNext)
    (hwait : s.WaitsForKey) (hfetch : s.fetch = some w) (hdecode : decodeWord w = .ok (.ldVxK x)) :
    step s = .next s.startCycle :=
  (step_of_fetch hrun hnext hfetch hdecode).trans (exec_ldVxK_waiting x (waitsForKey_startCycle hwait))

/-! ### A press and its release -/

/-- State t runs at the `PC` and in the memory of s, in a capture state, with a list of calls to come. -/
structure KeyWait (s t : State) (cap : Capture) (calls : List Call) : Prop where
  running : t.status = .running
  pc : t.pc = s.pc
  mem : t.mem = s.mem
  capture : t.cap = cap
  pending : t.calls = calls

section Waits
variable {s t : State} {cap : Capture} {k : Key} {rest : List Call}

theorem KeyWait.cycleNext {inp : CycleInputs} (h : KeyWait s t cap (.cycle inp :: rest)) : t.cycleNext := by
  rw [State.cycleNext, h.pending]
  rfl

theorem KeyWait.fetch {calls : List Call} {w : Word} (h : KeyWait s t cap calls) (hfetch : s.fetch = some w) :
    t.fetch = some w :=
  (fetch_congr h.pc h.mem).trans hfetch

theorem KeyWait.startCycle {inp : CycleInputs} (h : KeyWait s t cap (.cycle inp :: rest)) :
    KeyWait s t.startCycle cap rest where
  running := (State.startCycle_status t).trans h.running
  pc := (State.startCycle_pc t).trans h.pc
  mem := (State.startCycle_mem t).trans h.mem
  capture := (State.startCycle_cap t).trans h.capture
  pending := by rw [State.startCycle_calls, State.takeInputs, h.pending]

theorem KeyWait.step_press {choice : Bool} (h : KeyWait s t .capturing (.keyDown k choice :: rest))
    (hk : t.held k = false) : ∃ u, step t = .next u ∧ KeyWait s u (.captured k) rest ∧ u.held k = true := by
  obtain ⟨-, -, he⟩ | ⟨hplain, -⟩ := keyDown_cases k choice (State.opened { t with calls := rest })
  · obtain ⟨hdown, -, -⟩ := hostCallsRunBetweenCycles t rest
    refine ⟨_, hdown k choice h.pending, ?_, (held_keyDown k k choice _).trans (if_pos rfl)⟩
    rw [State.opened] at he
    rw [he]
    exact ⟨h.running, h.pc, h.mem, rfl, rfl⟩
  · exact absurd ⟨h.capture, .inl hk⟩ hplain

theorem KeyWait.step_release (h : KeyWait s t cap (.keyUp k :: rest)) :
    ∃ u, step t = .next u ∧ KeyWait s u cap rest ∧ u.held k = false := by
  obtain ⟨-, hup, -⟩ := hostCallsRunBetweenCycles t rest
  exact ⟨_, hup k h.pending, ⟨h.running, h.pc, h.mem, h.capture, rfl⟩, (held_keyUp k k _).trans (if_pos rfl)⟩

theorem KeyWait.step_held {inp : CycleInputs} {w : Word} {x : Reg}
    (h : KeyWait s t (.captured k) (.cycle inp :: rest)) (hk : t.held k = true) (hfetch : s.fetch = some w)
    (hdecode : decodeWord w = .ok (.ldVxK x)) : ∃ u, step t = .next u ∧ KeyWait s u (.captured k) rest :=
  ⟨_, step_of_waiting h.running h.cycleNext (.inr ⟨k, h.capture, hk⟩) (h.fetch hfetch) hdecode, h.startCycle⟩

theorem KeyWait.step_released {inp : CycleInputs} {w : Word} {x : Reg}
    (h : KeyWait s t (.captured k) (.cycle inp :: rest)) (hk : t.held k = false) (hfetch : s.fetch = some w)
    (hdecode : decodeWord w = .ok (.ldVxK x)) : ∃ u, step t = .next u ∧ (u.reg x).toNat = k.val ∧
      u.cap = .idle ∧ s.PcPast u 2 ∧ u.calls = rest ∧ u.mem = s.mem := by
  have hopened := h.startCycle
  refine ⟨_, (step_of_fetch h.running h.cycleNext (h.fetch hfetch) hdecode).trans
    (exec_ldVxK_released x hopened.capture ((held_startCycle t k).trans hk)), ?key, rfl, ?next, hopened.pending,
    hopened.mem⟩
  case key => rw [reg_deliverKey, if_pos rfl, toNat_keyByte]
  case next =>
    have hnext := pcPast_advance ((t.startCycle.setReg x (BitVec.ofNat 8 k.val)).setCap .idle)
    rw [State.PcPast, State.setCap_pc, State.setReg_pc, hopened.pc] at hnext
    exact hnext

/-! ### A wait that goes on -/

/-- What a wait that goes on keeps of the machine. -/
structure KeptByWait (s t : State) : Prop where
  pc : t.pc = s.pc
  cap : t.cap = s.cap
  status : t.status = s.status
  v : t.v = s.v
  i : t.i = s.i
  stack : t.stack = s.stack
  mem : t.mem = s.mem
  d : t.d = s.d

theorem KeptByWait.trans {u : State} (h : KeptByWait s t) (h' : KeptByWait t u) : KeptByWait s u :=
  ⟨h'.pc.trans h.pc, h'.cap.trans h.cap, h'.status.trans h.status, h'.v.trans h.v, h'.i.trans h.i,
    h'.stack.trans h.stack, h'.mem.trans h.mem, h'.d.trans h.d⟩

theorem keptByWait_startCycle (s : State) : KeptByWait s s.startCycle :=
  ⟨State.startCycle_pc s, State.startCycle_cap s, State.startCycle_status s, State.startCycle_v s,
    State.startCycle_i s, State.startCycle_stack s, State.startCycle_mem s, State.startCycle_d s⟩

/-- The machine waits for a key at word w, and no call to come ends the wait. -/
structure Hangs (w : Word) (s : State) : Prop where
  running : s.status = .running
  waits : s.WaitsForKey
  fetch : s.fetch = some w
  pending : ∀ c ∈ s.calls, c.KeepsWaiting s.cap

theorem Hangs.of_kept {w : Word} (h : Hangs w s) (hkept : KeptByWait s t) (hwaits : t.WaitsForKey)
    (hcalls : ∀ c ∈ t.calls, c ∈ s.calls) : Hangs w t where
  running := hkept.status.trans h.running
  waits := hwaits
  fetch := (fetch_congr hkept.pc hkept.mem).trans h.fetch
  pending c hc := hkept.cap ▸ h.pending c (hcalls c hc)

theorem mem_calls_of_mem_takeInputs {c : Call} (h : c ∈ s.takeInputs.calls) : c ∈ s.calls := by
  unfold State.takeInputs at h
  split at h
  next hcalls => rw [hcalls]; exact List.mem_cons_of_mem _ h
  next => exact h

/-- A press while no capture looks for one sets the key's flag alone. -/
theorem keyDown_of_not_capturing (choice : Bool) (h : s.cap ≠ .capturing) :
    keyDown k choice s = s.setKey k true := by
  rw [keyDown, if_neg]
  rintro ⟨hcapturing, -⟩
  exact h hcapturing

theorem waitsForKey_press (h : s.WaitsForKey) : (s.setKey k true).WaitsForKey := by
  obtain hcapturing | ⟨k', hcaptured, hheld⟩ := h
  · exact .inl hcapturing
  · exact .inr ⟨k', hcaptured, by rw [State.held_setKey, hheld, ite_self]⟩

/-- A release of another key than the captured one leaves the captured key's flag alone. -/
theorem waitsForKey_release (h : s.WaitsForKey) (hcap : s.cap ≠ .captured k) :
    (s.setKey k false).WaitsForKey := by
  obtain hcapturing | ⟨k', hcaptured, hheld⟩ := h
  · exact .inl hcapturing
  · have hne : k' ≠ k := fun he => hcap (he ▸ hcaptured)
    exact .inr ⟨k', hcaptured, by rw [State.held_setKey, if_neg hne, hheld]⟩

/-- A host's call that writes one key flag and lets the wait go on keeps the machine hanging. -/
theorem Hangs.step_setKey {w : Word} {c : Call} {b : Bool} (h : Hangs w s) (hcalls : s.calls = c :: rest)
    (hstep : step s = .next ((State.opened { s with calls := rest }).setKey k b))
    (hwaits : ((State.opened { s with calls := rest }).setKey k b).WaitsForKey) :
    ∃ t, step s = .next t ∧ KeptByWait s t ∧ Hangs w t := by
  have hkept : KeptByWait s ((State.opened { s with calls := rest }).setKey k b) :=
    ⟨rfl, rfl, rfl, rfl, rfl, rfl, rfl, rfl⟩
  exact ⟨_, hstep, hkept, h.of_kept hkept hwaits fun d hd => hcalls ▸ List.mem_cons_of_mem c hd⟩

/-- Each transaction of a hanging machine keeps it hanging. -/
theorem Hangs.step {w : Word} {x : Reg} (h : Hangs w s) (hdecode : decodeWord w = .ok (.ldVxK x)) :
    ∃ t, step s = .next t ∧ KeptByWait s t ∧ Hangs w t := by
  obtain ⟨k, choice, rest, hcalls, hstep⟩ | ⟨k, rest, hcalls, hstep⟩ | ⟨p, rest, hcalls, -⟩ | ⟨hnext, -⟩ :=
    step_cases s
  · have hcap : s.cap ≠ .capturing := h.pending (.keyDown k choice) (hcalls ▸ List.mem_cons_self)
    have hflag := keyDown_of_not_capturing (s := State.opened { s with calls := rest }) (k := k) choice hcap
    exact h.step_setKey hcalls (hstep.trans (congrArg _ hflag)) (waitsForKey_press h.waits)
  · have hcap : s.cap ≠ .captured k := h.pending (.keyUp k) (hcalls ▸ List.mem_cons_self)
    exact h.step_setKey hcalls hstep (waitsForKey_release h.waits hcap)
  · exact (h.pending (.load p) (hcalls ▸ List.mem_cons_self)).elim
  · have hkept := keptByWait_startCycle s
    refine ⟨_, step_of_waiting h.running hnext h.waits h.fetch hdecode, hkept,
      h.of_kept hkept (waitsForKey_startCycle h.waits) fun c hc => ?_⟩
    rw [State.startCycle_calls] at hc
    exact mem_calls_of_mem_takeInputs hc

/-- Any number of transactions of a hanging machine keep it hanging. -/
theorem Hangs.run {w : Word} {x : Reg} (hdecode : decodeWord w = .ok (.ldVxK x)) (n : Nat) :
    ∀ s : State, Hangs w s → ∃ t, Host.Core.run core n s = .next t ∧ KeptByWait s t := by
  induction n with
  | zero => exact fun s _ => ⟨s, rfl, rfl, rfl, rfl, rfl, rfl, rfl, rfl, rfl⟩
  | succ n ih =>
    intro s h
    obtain ⟨t, hstep, hkept, hhangs⟩ := h.step hdecode
    obtain ⟨u, hrun, hkept'⟩ := ih t hhangs
    exact ⟨u, (run_of_step core hstep).trans hrun, hkept.trans hkept'⟩

end Waits

/-! ### The statements -/

/-- Settles O45: the four transactions one after the other. -/
theorem pressAndReleaseDeliverKey : Obligations.PressAndReleaseDeliverKey := by
  intro x k choice a b rest w s hrun hcap hk hfetch hdecode hcalls
  have hstart : KeyWait s s .capturing _ := ⟨hrun, rfl, rfl, hcap, hcalls⟩
  obtain ⟨t₁, hpress, hwait₁, hheld⟩ := hstart.step_press hk
  obtain ⟨t₂, hcycle, hwait₂⟩ := hwait₁.step_held hheld hfetch hdecode
  obtain ⟨t₃, hrelease, hwait₃, hup⟩ := hwait₂.step_release
  obtain ⟨t₄, hdeliver, hend⟩ := hwait₃.step_released hup hfetch hdecode
  refine ⟨t₄, ?_, hend⟩
  calc Host.Core.run core 4 s
      = Host.Core.run core 3 t₁ := run_of_step core hpress
    _ = Host.Core.run core 2 t₂ := run_of_step core hcycle
    _ = Host.Core.run core 1 t₃ := run_of_step core hrelease
    _ = Host.Core.run core 0 t₄ := run_of_step core hdeliver

/-- Settles O46: by induction on the number of steps, each of which keeps the machine hanging. -/
theorem keyWaitWithoutKeysHangs : Obligations.KeyWaitWithoutKeysHangs := by
  intro n x w s hrun hwait hfetch hdecode hcalls
  obtain ⟨t, ht, hkept⟩ := Hangs.run hdecode n s ⟨hrun, hwait, hfetch, hcalls⟩
  exact ⟨t, ht, hkept.pc, hkept.cap, hkept.status.trans hrun, hkept.v, hkept.i, hkept.stack, hkept.mem, hkept.d⟩

end Sys2Proof.Machine
end

section
/-! SUPPORT. The canonical form of memory is unique (log 13). -/

namespace Sys2Proof.Machine

/-- Below its first possible address, a canonical memory lists nothing. -/
theorem Memory.read_of_lt {m : Memory} {lo a : Nat} (h : Memory.wfFrom lo m = true) (ha : a < lo) :
    m.read a = Memory.initial a := by
  induction m generalizing lo with
  | nil => rfl
  | cons cell m ih =>
    obtain ⟨c, b⟩ := cell
    obtain ⟨hlo, -, -, htail⟩ := (Memory.wfFrom_cons lo c b m).mp h
    rw [Memory.read_cons, if_neg (by omega)]
    exact ih htail (by omega)

theorem Memory.read_head (a : Nat) (b : Byte) (m : Memory) : Memory.read ((a, b) :: m) a = b := by
  rw [Memory.read_cons, if_pos rfl]

/-- A canonical memory that lists an address first is not one that starts above it: at that address they
read differently. -/
theorem Memory.read_head_ne {m m' : Memory} {lo a : Nat} {b : Byte}
    (h : Memory.wfFrom lo ((a, b) :: m) = true) (h' : Memory.wfFrom (a + 1) m' = true) :
    Memory.read ((a, b) :: m) a ≠ m'.read a := by
  obtain ⟨-, -, hb, -⟩ := (Memory.wfFrom_cons lo a b m).mp h
  rw [Memory.read_head, Memory.read_of_lt h' (Nat.lt_succ_self a)]
  exact hb

theorem Memory.wfFrom_of_le_head {lo lo' a : Nat} {b : Byte} {m : Memory} (hle : lo' ≤ a)
    (h : Memory.wfFrom lo ((a, b) :: m) = true) : Memory.wfFrom lo' ((a, b) :: m) = true := by
  obtain ⟨-, hrest⟩ := (Memory.wfFrom_cons lo a b m).mp h
  exact (Memory.wfFrom_cons lo' a b m).mpr ⟨hle, hrest⟩

/-- Two canonical memories that read alike have the same first cell, and tails that read alike. -/
theorem Memory.eq_of_read_eq {m m' : Memory} {lo : Nat} (h : Memory.wfFrom lo m = true)
    (h' : Memory.wfFrom lo m' = true) (hread : ∀ a, m.read a = m'.read a) : m = m' := by
  induction m generalizing m' lo with
  | nil =>
    cases m' with
    | nil => rfl
    | cons cell m' =>
      obtain ⟨a, b⟩ := cell
      exact absurd (hread a).symm (Memory.read_head_ne h' rfl)
  | cons cell m ih =>
    obtain ⟨a, b⟩ := cell
    cases m' with
    | nil => exact absurd (hread a) (Memory.read_head_ne h rfl)
    | cons cell' m' =>
      obtain ⟨a', b'⟩ := cell'
      have hnlt : ¬ a < a' := fun hlt =>
        Memory.read_head_ne h (Memory.wfFrom_of_le_head hlt h') (hread a)
      have hngt : ¬ a' < a := fun hgt =>
        Memory.read_head_ne h' (Memory.wfFrom_of_le_head hgt h) (hread a').symm
      obtain rfl : a = a' := by omega
      obtain rfl : b = b' := by
        have hhead := hread a
        rwa [Memory.read_head, Memory.read_head] at hhead
      obtain ⟨-, -, -, htail⟩ := (Memory.wfFrom_cons lo a b m).mp h
      obtain ⟨-, -, -, htail'⟩ := (Memory.wfFrom_cons lo a b m').mp h'
      refine congrArg ((a, b) :: ·) (ih htail htail' fun x => ?_)
      by_cases hx : x = a
      · rw [hx, Memory.read_of_lt htail (Nat.lt_succ_self a), Memory.read_of_lt htail' (Nat.lt_succ_self a)]
      · have hcons := hread x
        rwa [Memory.read_cons, Memory.read_cons, if_neg hx, if_neg hx] at hcons

/-- Settles O58: the canonical form from address 0 on. -/
theorem canonicalMemoryIsUnique : Obligations.CanonicalMemoryIsUnique :=
  fun _ _ h h' hread => Memory.eq_of_read_eq h h' hread

end Sys2Proof.Machine
end

section
/-! SUPPORT. Where a run ends, and what is no ended run (40_cycle.md R106, R110): each result of `runUntil`
by induction on the transactions left, its first point split off. -/

namespace Sys2Proof.Machine

section Points
variable {e : RunEnd} {p : RunPoint}

/-! ### The points before an end -/

theorem reached_of_notEndedBefore_succ {j : Nat} (h : p.NotEndedBefore e (j + 1)) : e.reached p = false :=
  h 0 (Nat.succ_pos j) p (hasRun_zero.mpr rfl)

theorem notEndedBefore_zero : p.NotEndedBefore e 0 :=
  fun _ hi => absurd hi (Nat.not_lt_zero _)

theorem notEndedBefore_one (h : e.reached p = false) : p.NotEndedBefore e 1 := by
  intro i hi q hq
  obtain rfl : i = 0 := by omega
  rw [hasRun_zero.mp hq]
  exact h

theorem notEndedBefore_succ {t : State} (hstep : step p.state = .next t) (j : Nat) :
    p.NotEndedBefore e (j + 1) ↔ e.reached p = false ∧ (p.after t).NotEndedBefore e j := by
  constructor
  · intro h
    exact ⟨reached_of_notEndedBefore_succ h,
      fun i hi q hq => h (i + 1) (Nat.succ_lt_succ hi) q ((hasRun_succ hstep i).mpr hq)⟩
  · rintro ⟨hp, h⟩ i hi q hq
    match i with
    | 0 => rw [hasRun_zero.mp hq]; exact hp
    | i + 1 => exact h i (Nat.lt_of_succ_lt_succ hi) q ((hasRun_succ hstep i).mp hq)

theorem not_reached_of_hasRun_zero {q : RunPoint} (hp : e.reached p = false) (h : p.HasRun 0 q) :
    e.reached q = false := by
  rw [hasRun_zero.mp h]
  exact hp

theorem not_notEndedBefore_of_reached {j : Nat} (hp : e.reached p = true) : ¬ p.NotEndedBefore e (j + 1) :=
  fun h => absurd (hp.symm.trans (reached_of_notEndedBefore_succ h)) (by decide)

/-! ### One transaction of a run that has not reached its end -/

theorem runUntil_zero (hp : e.reached p = false) : runUntil e 0 p = .unended p := by
  simp only [runUntil, hp, Bool.false_eq_true, if_false]

theorem runUntil_of_next {t : State} (hp : e.reached p = false) (hstep : step p.state = .next t) (k : Nat) :
    runUntil e (k + 1) p = runUntil e k (p.after t) := by
  simp only [runUntil, hp, hstep, Bool.false_eq_true, if_false]

theorem runUntil_of_refused {r : Refusal} (hp : e.reached p = false) (hstep : step p.state = .refused r)
    (k : Nat) : runUntil e (k + 1) p = .refused r p := by
  simp only [runUntil, hp, hstep, Bool.false_eq_true, if_false]

theorem step_next_or_refused (s : State) : (∃ t, step s = .next t) ∨ ∃ r, step s = .refused r := by
  match hstep : step s with
  | .next t => exact .inl ⟨t, rfl⟩
  | .refused r => exact .inr ⟨r, rfl⟩
  | .fault f => exact absurd hstep (step_ne_fault s f)

/-! ### The results of a run -/

theorem runUntil_ended_iff_of_reached (hp : e.reached p = true) (k : Nat) (q : RunPoint) :
    runUntil e k p = .ended q ↔ ∃ j, j ≤ k ∧ p.HasRun j q ∧ e.reached q = true ∧ p.NotEndedBefore e j := by
  rw [runUntil_of_reached hp]
  constructor
  · rintro ⟨⟩
    exact ⟨0, Nat.zero_le k, hasRun_zero.mpr rfl, hp, notEndedBefore_zero⟩
  · rintro ⟨_ | j, -, hrun, -, hbefore⟩
    · rw [hasRun_zero.mp hrun]
    · exact absurd hbefore (not_notEndedBefore_of_reached hp)

theorem runUntil_ended_iff (e : RunEnd) (k : Nat) : ∀ p q : RunPoint, runUntil e k p = .ended q ↔
    ∃ j, j ≤ k ∧ p.HasRun j q ∧ e.reached q = true ∧ p.NotEndedBefore e j := by
  induction k with
  | zero =>
    intro p q
    cases hp : e.reached p with
    | true => exact runUntil_ended_iff_of_reached hp 0 q
    | false =>
      rw [runUntil_zero hp]
      refine iff_of_false (fun h => nomatch h) ?_
      rintro ⟨j, hj, hrun, hq, -⟩
      obtain rfl : j = 0 := by omega
      exact absurd (hq.symm.trans (not_reached_of_hasRun_zero hp hrun)) (by decide)
  | succ k ih =>
    intro p q
    cases hp : e.reached p with
    | true => exact runUntil_ended_iff_of_reached hp (k + 1) q
    | false =>
      obtain ⟨t, hstep⟩ | ⟨r, hstep⟩ := step_next_or_refused p.state
      · rw [runUntil_of_next hp hstep, ih]
        constructor
        · rintro ⟨j, hj, hrun, hq, hbefore⟩
          exact ⟨j + 1, Nat.succ_le_succ hj, (hasRun_succ hstep j).mpr hrun, hq,
            (notEndedBefore_succ hstep j).mpr ⟨hp, hbefore⟩⟩
        · rintro ⟨_ | j, hj, hrun, hq, hbefore⟩
          · exact absurd (hq.symm.trans (not_reached_of_hasRun_zero hp hrun)) (by decide)
          · obtain ⟨-, hbefore⟩ := (notEndedBefore_succ hstep j).mp hbefore
            exact ⟨j, Nat.le_of_succ_le_succ hj, (hasRun_succ hstep j).mp hrun, hq, hbefore⟩
      · rw [runUntil_of_refused hp hstep]
        refine iff_of_false (fun h => nomatch h) ?_
        rintro ⟨_ | j, -, hrun, hq, -⟩
        · exact absurd (hq.symm.trans (not_reached_of_hasRun_zero hp hrun)) (by decide)
        · exact not_hasRun_of_refused hstep j hrun

theorem runUntil_refused_iff (e : RunEnd) (r : Refusal) (k : Nat) : ∀ p q : RunPoint,
    runUntil e k p = .refused r q ↔
      ∃ j, j < k ∧ p.HasRun j q ∧ step q.state = .refused r ∧ p.NotEndedBefore e (j + 1) := by
  induction k with
  | zero =>
    intro p q
    refine iff_of_false (fun h => ?_) (fun ⟨_, hj, _⟩ => absurd hj (Nat.not_lt_zero _))
    cases hp : e.reached p with
    | true => exact nomatch (runUntil_of_reached hp 0).symm.trans h
    | false => exact nomatch (runUntil_zero hp).symm.trans h
  | succ k ih =>
    intro p q
    cases hp : e.reached p with
    | true =>
      rw [runUntil_of_reached hp]
      refine iff_of_false (fun h => nomatch h) ?_
      rintro ⟨j, -, -, -, hbefore⟩
      exact not_notEndedBefore_of_reached hp hbefore
    | false =>
      obtain ⟨t, hstep⟩ | ⟨r', hstep⟩ := step_next_or_refused p.state
      · rw [runUntil_of_next hp hstep, ih]
        constructor
        · rintro ⟨j, hj, hrun, hq, hbefore⟩
          exact ⟨j + 1, Nat.succ_lt_succ hj, (hasRun_succ hstep j).mpr hrun, hq,
            (notEndedBefore_succ hstep (j + 1)).mpr ⟨hp, hbefore⟩⟩
        · rintro ⟨_ | j, hj, hrun, hq, hbefore⟩
          · rw [hasRun_zero.mp hrun, hstep] at hq
            exact nomatch hq
          · obtain ⟨-, hbefore⟩ := (notEndedBefore_succ hstep (j + 1)).mp hbefore
            exact ⟨j, Nat.lt_of_succ_lt_succ hj, (hasRun_succ hstep j).mp hrun, hq, hbefore⟩
      · rw [runUntil_of_refused hp hstep]
        constructor
        · rintro ⟨⟩
          exact ⟨0, Nat.succ_pos k, hasRun_zero.mpr rfl, hstep, notEndedBefore_one hp⟩
        · rintro ⟨_ | j, -, hrun, hq, -⟩
          · obtain rfl := hasRun_zero.mp hrun
            rw [Host.Outcome.refused.inj (hstep.symm.trans hq)]
          · exact absurd hrun (not_hasRun_of_refused hstep j)

theorem runUntil_unended_iff (e : RunEnd) (k : Nat) : ∀ p q : RunPoint,
    runUntil e k p = .unended q ↔ p.HasRun k q ∧ p.NotEndedBefore e (k + 1) := by
  induction k with
  | zero =>
    intro p q
    cases hp : e.reached p with
    | true =>
      rw [runUntil_of_reached hp]
      exact iff_of_false (fun h => nomatch h) fun ⟨_, hbefore⟩ => not_notEndedBefore_of_reached hp hbefore
    | false =>
      rw [runUntil_zero hp, hasRun_zero]
      constructor
      · rintro ⟨⟩
        exact ⟨rfl, notEndedBefore_one hp⟩
      · rintro ⟨rfl, -⟩
        rfl
  | succ k ih =>
    intro p q
    cases hp : e.reached p with
    | true =>
      rw [runUntil_of_reached hp]
      exact iff_of_false (fun h => nomatch h) fun ⟨_, hbefore⟩ => not_notEndedBefore_of_reached hp hbefore
    | false =>
      obtain ⟨t, hstep⟩ | ⟨r, hstep⟩ := step_next_or_refused p.state
      · rw [runUntil_of_next hp hstep, ih, hasRun_succ hstep, notEndedBefore_succ hstep]
        simp only [hp, true_and]
      · rw [runUntil_of_refused hp hstep]
        exact iff_of_false (fun h => nomatch h) fun ⟨hrun, _⟩ => not_hasRun_of_refused hstep k hrun

/-- A run that starts ends, is used up, or is refused: it stops on no fault, and its load did not fail. -/
theorem runUntil_result (e : RunEnd) (k : Nat) : ∀ p : RunPoint, (∃ q, runUntil e k p = .ended q) ∨
    (∃ q, runUntil e k p = .unended q) ∨ ∃ r q, runUntil e k p = .refused r q := by
  induction k with
  | zero =>
    intro p
    cases hp : e.reached p with
    | true => exact .inl ⟨p, runUntil_of_reached hp 0⟩
    | false => exact .inr (.inl ⟨p, runUntil_zero hp⟩)
  | succ k ih =>
    intro p
    cases hp : e.reached p with
    | true => exact .inl ⟨p, runUntil_of_reached hp (k + 1)⟩
    | false =>
      obtain ⟨t, hstep⟩ | ⟨r, hstep⟩ := step_next_or_refused p.state
      · rw [runUntil_of_next hp hstep]
        exact ih (p.after t)
      · exact .inr (.inr ⟨r, p, runUntil_of_refused hp hstep k⟩)

/-! ### The run of a program -/

theorem runProgram_notLoaded_iff (bytes : List Byte) (calls : List Call) (e : RunEnd) (k : Nat) :
    (∃ r, runProgram bytes calls e k = .notLoaded r) ↔ bytes = [] ∨ 3584 < bytes.length := by
  by_cases hempty : bytes = []
  · subst hempty
    exact iff_of_true ⟨_, rfl⟩ (.inl rfl)
  · by_cases hlong : 3584 < bytes.length
    · refine iff_of_true ⟨.oversizedProgram, ?_⟩ (.inr hlong)
      simp only [runProgram, load_oversized hlong]
    · have hload := load_accepted hempty (Nat.not_lt.mp hlong) State.unloaded
      refine iff_of_false ?_ (not_or.mpr ⟨hempty, hlong⟩)
      rintro ⟨r, h⟩
      simp only [runProgram, hload] at h
      obtain ⟨q, hq⟩ | ⟨q, hq⟩ | ⟨r', q, hq⟩ := runUntil_result e k _
      · exact nomatch hq.symm.trans h
      · exact nomatch hq.symm.trans h
      · exact nomatch hq.symm.trans h

end Points

/-! ### The statements -/

/-- Settles O59: the first point that reaches the end; each kind of end is a comparison. -/
theorem runEndsAtFirstBoundary : Obligations.RunEndsAtFirstBoundary := by
  intro e k p q
  exact ⟨runUntil_ended_iff e k p q, fun n => beq_iff_eq, fun a => beq_iff_eq⟩

/-- Settles O60: the other results of a run, and the two programs that do not load. -/
theorem refusedAndUnendedRuns : Obligations.RefusedAndUnendedRuns := by
  intro e k p q bytes calls
  refine ⟨fun r => runUntil_refused_iff e r k p q, runUntil_unended_iff e k p q, fun f h => ?stopped,
    runProgram_notLoaded_iff bytes calls e k⟩
  case stopped =>
    obtain ⟨_, hq⟩ | ⟨_, hq⟩ | ⟨_, _, hq⟩ := runUntil_result e k p
    · exact nomatch hq.symm.trans h
    · exact nomatch hq.symm.trans h
    · exact nomatch hq.symm.trans h

end Sys2Proof.Machine
end
